-- ==== Sys2Proof/Word.lean ====
section
/-! DEFINITION. The word types of the codec and its plainest arithmetic (spec/00_scope.md R8). -/

namespace Sys2Proof

/-- A byte: 8 bits, bit 0 least significant (R8). -/
abbrev Byte := BitVec 8

/-- An input word of a unit: 9 bits, `end` in bit 8 and `char` in bits 7..0 (R47). -/
abbrev InWord := BitVec 9

/-- A logical bit, before Manchester coding: `false` is 0 and `true` is 1 (R8, R11). -/
abbrev Bit := Bool

/-- A chip, one transmitted line-code bit: `false` is 0 and `true` is 1 (R8, R11). -/
abbrev Chip := Bool

/-- `sat_N(v)` = min(v, N) on non-negative integers (R8). -/
def sat (limit v : Nat) : Nat := min v limit

end Sys2Proof
end

