-- ==== Sys2Proof/Config.lean ====
section
/-! DEFINITION. The parameters of the hardware (spec/00_scope.md R7). -/

namespace Sys2Proof

/-- `P_STUFF_TRIGGER`: `eq` stuffs at the one that brings the one-count to exactly 5, `ge` whenever it is 5 or
more (R7, R72). -/
inductive StuffTrigger where
  | eq
  | ge
  deriving DecidableEq, Repr

/-- What an implementation fixes and no step changes. `P_LATENCY`, the other model argument of R7, is not modelled:
no rule depends on it (R138). -/
structure Config where
  stuffTrigger : StuffTrigger
  deriving DecidableEq, Repr

/-- The parameter values the spec names as default (R7). -/
def Config.default : Config := ⟨.eq⟩

namespace Config

/-- `SYNC_WORD` (R7, R52). -/
def syncWord : Byte := 0x7E

/-- `STUFF_RUN`: ones before a stuffed zero (R7). -/
def stuffRun : Nat := 5

/-- `MAX_RUN`: the longest legal one-run (R7). -/
def maxRun : Nat := 6

/-- `STUFF_START`: logical bits of a frame before stuffing may start (R7, R70). -/
def stuffStart : Nat := 8

/-- `BYTE_W`: data bits of a byte and bit characters of a full group (R7, R67, R93). -/
def byteWidth : Nat := 8

/-- The value at which `ENC.ones` saturates (R7, R30). -/
def onesLimit : Nat := 7

/-- The value at which `ENC.sbits` saturates (R7, R31). -/
def sbitsLimit : Nat := 8

/-- `'0'`. PRESUMED (log entry 10): the four character codes are ASCII, which the spec gives "from general
knowledge, not in source" (R48). -/
def charZero : Byte := 0x30

/-- `'1'` (R48; PRESUMED, log entry 10). -/
def charOne : Byte := 0x31

/-- `'|'` (R48; PRESUMED, log entry 10). -/
def charBar : Byte := 0x7C

/-- Line feed (R48; PRESUMED, log entry 10). -/
def charLineFeed : Byte := 0x0A

end Config

end Sys2Proof
end

