-- ==== Sys2Proof/Syntax.lean ====
section
/-! DEFINITION. The operations of the codec as syntax: one constructor per row of spec/opcode_table.json,
and the words the host offers to the units (spec/30_encoding.md). -/

namespace Sys2Proof

/-- A phase channel of the decoder unit: `a` is `ch[0]`, Channel A; `b` is `ch[1]`, Channel B (R9, R18). -/
inductive Chan where
  | a
  | b
  deriving DecidableEq, Repr

/-- `1 - i`, the other channel (R9). -/
def Chan.other : Chan → Chan
  | .a => .b
  | .b => .a

/-- Which component takes a word. The words of `DEC` and `ENC` are the same 9-bit words, and the host picks the
unit by feeding it (R6, R49, R50); the codec's two formats belong to the encoder unit and to a phase channel
(spec/40_symbol_codec.md, and the `unit` field of the opcode table). -/
inductive Port where
  | dec
  | enc
  | codec
  | sym (i : Chan)
  deriving DecidableEq, Repr

/-- The width of a port's word: formats `in_word9`, `bit1` and `sym2` of the opcode table (R47, R51, R60). -/
def Port.width : Port → Nat
  | .dec => 9
  | .enc => 9
  | .codec => 1
  | .sym _ => 2

/-- One word together with the component that takes it. -/
inductive Offer where
  | dec (w : InWord)
  | enc (w : InWord)
  | codec (b : BitVec 1)
  | sym (i : Chan) (v : BitVec 2)
  deriving DecidableEq, Repr

/-- The operations, one constructor per row of the opcode table. `NOISE` keeps the character and `END` the eight
ignored bits of its word (R47, R48), so that an encoding loses nothing. A `SYM` operation carries the channel that
asked the codec (R59: "the phase channel that asked"); its 2-bit word does not name the channel. -/
inductive Instr where
  | decChip0
  | decChip1
  | decDelimBar
  | decDelimNl
  | decNoise (char : Byte)
  | decEnd (char : Byte)
  | encBit0
  | encBit1
  | encDelimBar
  | encDelimNl
  | encNoise (char : Byte)
  | encEnd (char : Byte)
  | codecEnc0
  | codecEnc1
  | sym01 (i : Chan)
  | sym10 (i : Chan)
  | sym00 (i : Chan)
  | sym11 (i : Chan)
  deriving DecidableEq, Repr

/-- The component an operation belongs to. -/
def Instr.port : Instr → Port
  | .decChip0 => .dec
  | .decChip1 => .dec
  | .decDelimBar => .dec
  | .decDelimNl => .dec
  | .decNoise _ => .dec
  | .decEnd _ => .dec
  | .encBit0 => .enc
  | .encBit1 => .enc
  | .encDelimBar => .enc
  | .encDelimNl => .enc
  | .encNoise _ => .enc
  | .encEnd _ => .enc
  | .codecEnc0 => .codec
  | .codecEnc1 => .codec
  | .sym01 i => .sym i
  | .sym10 i => .sym i
  | .sym00 i => .sym i
  | .sym11 i => .sym i

end Sys2Proof
end

