-- ==== Sys2Proof/WellFormed.lean ====
section
/-! DEFINITION. Which operations some input word encodes: the `NOISE` operations carry a character of class
`NOISE` (spec/30_encoding.md R48). -/

namespace Sys2Proof

/-- A character of class `NOISE`: not a bit character and not a delimiter (R48, R83, R112). -/
def isNoiseChar (c : Byte) : Bool :=
  c != Config.charZero && c != Config.charOne && c != Config.charBar && c != Config.charLineFeed

/-- Well-formed operations: those that a word of their port encodes. -/
def Instr.wf : Instr → Bool
  | .decNoise c => isNoiseChar c
  | .encNoise c => isNoiseChar c
  | .decChip0 => true
  | .decChip1 => true
  | .decDelimBar => true
  | .decDelimNl => true
  | .decEnd _ => true
  | .encBit0 => true
  | .encBit1 => true
  | .encDelimBar => true
  | .encDelimNl => true
  | .encEnd _ => true
  | .codecEnc0 => true
  | .codecEnc1 => true
  | .sym01 _ => true
  | .sym10 _ => true
  | .sym00 _ => true
  | .sym11 _ => true

end Sys2Proof
end

