-- ==== Sys2Proof/Decode.lean ====
section
/-! DEFINITION. Decoding: from a word and the component that takes it to an operation, total, every word having a
meaning (spec/30_encoding.md R47 to R51, R55). Then the encoder, written from the same tables. -/

namespace Sys2Proof

/-- The class of an input word (R48); `noise` carries the character, `endToken` the eight ignored bits. -/
inductive CharClass where
  | bit0
  | bit1
  | delimBar
  | delimNl
  | noise (char : Byte)
  | endToken (char : Byte)
  deriving DecidableEq, Repr

/-- Bit 8 of an input word, `end` (R47). -/
def InWord.endBit (w : InWord) : Bool := w.getLsbD 8

/-- Bits 7..0 of an input word, `char` (R47). -/
def InWord.char (w : InWord) : Byte := w.setWidth 8

/-- The input word `(end, char)` (R47). -/
def inWord (endBit : Bool) (char : Byte) : InWord := BitVec.cons endBit char

/-- The class of an input word. `END` has the highest priority and `NOISE` the lowest (R48). -/
def classOf (w : InWord) : CharClass :=
  if InWord.endBit w then .endToken (InWord.char w)
  else if InWord.char w = Config.charZero then .bit0
  else if InWord.char w = Config.charOne then .bit1
  else if InWord.char w = Config.charBar then .delimBar
  else if InWord.char w = Config.charLineFeed then .delimNl
  else .noise (InWord.char w)

/-- The decoder unit's operation of an input word (R49). -/
def decodeDec (w : InWord) : Instr :=
  match classOf w with
  | .bit0 => .decChip0
  | .bit1 => .decChip1
  | .delimBar => .decDelimBar
  | .delimNl => .decDelimNl
  | .noise c => .decNoise c
  | .endToken c => .decEnd c

/-- The encoder unit's operation of an input word (R50). -/
def decodeEnc (w : InWord) : Instr :=
  match classOf w with
  | .bit0 => .encBit0
  | .bit1 => .encBit1
  | .delimBar => .encDelimBar
  | .delimNl => .encDelimNl
  | .noise c => .encNoise c
  | .endToken c => .encEnd c

/-- The symbol codec's encode operation of a logical bit (R60, R61). -/
def decodeCodec (b : BitVec 1) : Instr :=
  if b = 0 then .codecEnc0 else .codecEnc1

/-- The symbol codec's decode operation of the 2-bit value `(c1, c2)`, `c1` in bit 1 (R51). -/
def decodeSym (i : Chan) (v : BitVec 2) : Instr :=
  if v = 0b01 then .sym01 i
  else if v = 0b10 then .sym10 i
  else if v = 0b00 then .sym00 i
  else .sym11 i

/-- The operation of an offered word. Total: no word is reserved and no word traps (R55). -/
def decode : Offer → Instr
  | .dec w => decodeDec w
  | .enc w => decodeEnc w
  | .codec b => decodeCodec b
  | .sym i v => decodeSym i v

/-- Why bytes are no word of a port: the list is too short, or a bit stands above the port's width. -/
inductive DecodeError where
  | truncated
  | bitsAboveWord
  deriving DecidableEq, Repr

/-- The word a number stands for at a port; a number with a bit above the port's width is rejected. -/
def offerOf (p : Port) (n : Nat) : Except DecodeError Offer :=
  if 2 ^ p.width ≤ n then .error .bitsAboveWord
  else
    match p with
    | .dec => .ok (.dec (BitVec.ofNat 9 n))
    | .enc => .ok (.enc (BitVec.ofNat 9 n))
    | .codec => .ok (.codec (BitVec.ofNat 1 n))
    | .sym i => .ok (.sym i (BitVec.ofNat 2 n))

/-- How many bytes hold a word of a port. DESIGN CHOICE (log entry 9): the spec lays no word out in bytes. -/
def Port.nbytes : Port → Nat
  | .dec => 2
  | .enc => 2
  | .codec => 1
  | .sym _ => 1

/-- The number a byte list stands for, first byte least significant (log entry 9). -/
def numberOfBytes : List Byte → Nat
  | [] => 0
  | b :: bs => b.toNat + 256 * numberOfBytes bs

/-- The byte list of a number, `k` bytes, first byte least significant (log entry 9). -/
def bytesOfNumber : Nat → Nat → List Byte
  | 0, _ => []
  | k + 1, n => BitVec.ofNat 8 n :: bytesOfNumber k (n / 256)

/-- Decoding on any bytes: the operation at the head of the list and the rest, or a rejection by name. -/
def decodeBytes (p : Port) (bs : List Byte) : Except DecodeError (Instr × List Byte) :=
  if bs.length < p.nbytes then .error .truncated
  else
    match offerOf p (numberOfBytes (bs.take p.nbytes)) with
    | .error e => .error e
    | .ok o => .ok (decode o, bs.drop p.nbytes)

/-- The word of an operation, with the component that takes it (R48 to R51, R60, R61). -/
def encode : Instr → Offer
  | .decChip0 => .dec (inWord false Config.charZero)
  | .decChip1 => .dec (inWord false Config.charOne)
  | .decDelimBar => .dec (inWord false Config.charBar)
  | .decDelimNl => .dec (inWord false Config.charLineFeed)
  | .decNoise c => .dec (inWord false c)
  | .decEnd c => .dec (inWord true c)
  | .encBit0 => .enc (inWord false Config.charZero)
  | .encBit1 => .enc (inWord false Config.charOne)
  | .encDelimBar => .enc (inWord false Config.charBar)
  | .encDelimNl => .enc (inWord false Config.charLineFeed)
  | .encNoise c => .enc (inWord false c)
  | .encEnd c => .enc (inWord true c)
  | .codecEnc0 => .codec 0
  | .codecEnc1 => .codec 1
  | .sym01 i => .sym i 0b01
  | .sym10 i => .sym i 0b10
  | .sym00 i => .sym i 0b00
  | .sym11 i => .sym i 0b11

/-- The number of an offered word. -/
def Offer.number : Offer → Nat
  | .dec w => w.toNat
  | .enc w => w.toNat
  | .codec b => b.toNat
  | .sym _ v => v.toNat

/-- The bytes of an operation's word (log entry 9). -/
def encodeBytes (i : Instr) : List Byte :=
  bytesOfNumber i.port.nbytes (encode i).number

/-- The port at which a row of the opcode table is read by its bit count alone. DESIGN CHOICE (log entry 3): the
table's rows of `DEC` and `ENC` share their words, and so do those of `CODEC` and `SYM`; a 9-bit row (two whole
bytes) is read as fed to `DEC`, a 2-bit row (one whole byte) as a symbol in Channel A, and a bare single bit as the
codec's encode input. -/
def tablePort (nbits : Nat) : Option Port :=
  if nbits = 9 ∨ nbits = 16 then some .dec
  else if nbits = 2 ∨ nbits = 8 then some (.sym .a)
  else if nbits = 1 then some .codec
  else none

/-- The offered word of a table row's bits. -/
def tableOffer (nbits w : Nat) : Option Offer :=
  match tablePort nbits with
  | none => none
  | some p => (offerOf p w).toOption

/-- The operation the decoder reads from a table row's bits. -/
def decodeTableWord (nbits w : Nat) : Option Instr :=
  (tableOffer nbits w).map decode

end Sys2Proof
end

