-- ==== Sys2Proof/Machine/State.lean ====
section
/-! DEFINITION. The state of the codec as plain data: the registers of both units (spec/10_state.md), their output
sequences, and what the host still offers; the reset values of R34; the reasons a step could stop. -/

namespace Sys2Proof.Machine

/-- The kind of a frame delimiter, as it came in (R53). -/
inductive DelimKind where
  | bar
  | nl
  deriving DecidableEq, Repr

/-- An output token of `ENC` (R53). -/
inductive EncToken where
  | chip (c : Chip)
  | delim (k : DelimKind)
  deriving DecidableEq, Repr

/-- The output token `Byte(v, sep)` of `DEC`: `sep` says that a frame separator comes before `v` (R53). -/
structure DecToken where
  byte : Byte
  sep : Bool
  deriving DecidableEq, Repr

/-- One entry of the channel file (R18 to R23): sync window, one-run counter, data accumulator, its bit count, and
whether the channel is Synchronized. -/
structure Channel where
  win : BitVec 8
  run : BitVec 3
  acc : BitVec 8
  cnt : BitVec 3
  sync : Bool
  deriving DecidableEq, Repr

/-- The decoder unit: its registers (R16 to R27) and, last, its output sequence, oldest token first (R9). -/
structure Dec where
  prev : Option Chip
  sel : Chan
  chA : Channel
  chB : Channel
  emittedAny : Bool
  frameOut : Bool
  out : List DecToken
  deriving DecidableEq, Repr

/-- The encoder unit: its registers (R28 to R31) and, last, its output sequence, oldest token first (R9). -/
structure Enc where
  eacc : BitVec 8
  ecnt : BitVec 3
  ones : BitVec 3
  sbits : BitVec 4
  out : List EncToken
  deriving DecidableEq, Repr

/-- What the outside world gives the block: a word for one of its units, or the reset input asserted between two
steps (R46, R131, R132). -/
inductive Event where
  | word (o : Offer)
  | rst
  deriving DecidableEq, Repr

/-- The machine: the parameters, the two units, and what the host still offers, oldest first. The telegram is no
state of the hardware (R13); `input` holds the host's side (log entry 1). -/
structure State where
  cfg : Config
  dec : Dec
  enc : Enc
  input : List Event
  deriving DecidableEq, Repr

/-- Why the machine would stop with a fault. Nothing raises one, so the type is empty: IllegalSymbol and IllegalRun
are handled inside the step (R121, R125), no input word is illegal (R55), and the encoder has no error path (R122).
Safe: no behaviour of the hardware is left out by it. -/
inductive Fault where
  deriving DecidableEq, Repr

/-- Why an operation would have no meaning. -/
inductive Refusal where
  /-- Raised by an arm of `exec` for an operation without a meaning. No arm raises it now. Safe. -/
  | notModelled (mnemonic : String)
  deriving DecidableEq, Repr

/-- A channel's registers after reset (R34). -/
def Channel.reset : Channel := ⟨0x00, 0, 0x00, 0, false⟩

/-- The decoder unit after reset (R34), nothing emitted. -/
def Dec.reset : Dec :=
  { prev := none, sel := .a, chA := Channel.reset, chB := Channel.reset,
    emittedAny := false, frameOut := false, out := [] }

/-- The encoder unit after reset (R34), nothing emitted. -/
def Enc.reset : Enc := { eacc := 0x00, ecnt := 0, ones := 0, sbits := 0, out := [] }

/-- The machine after reset: every register at the value of R34, the default parameters (R7), nothing emitted and
nothing offered (log entries 1, 2, 5, 8). -/
def State.reset : State :=
  { cfg := Config.default, dec := Dec.reset, enc := Enc.reset, input := [] }

end Sys2Proof.Machine
end

