-- ==== Sys2Proof/Machine/Operands.lean ====
section
/-! DEFINITION. The operand forms: reading and writing the channel file (spec/10_state.md R18) and the assembly of
multi-bit values (spec/30_encoding.md R54). -/

namespace Sys2Proof.Machine

/-- `ch[i]` (R9, R18). -/
def Dec.ch (d : Dec) (i : Chan) : Channel :=
  match i with
  | .a => d.chA
  | .b => d.chB

/-- `ch[i] <- c` (R9, R18). -/
def Dec.setCh (d : Dec) (i : Chan) (c : Channel) : Dec :=
  match i with
  | .a => { d with chA := c }
  | .b => { d with chB := c }

/-- `{b, win[7:1]}`: the new bit enters at bit 7 and the window shifts right (R91). -/
def shiftWindow (b : Bit) (win : BitVec 8) : BitVec 8 :=
  BitVec.cons b (win.extractLsb' 1 7)

/-- `acc | zext_8(b << cnt)`: data bit number `cnt` goes to bit `cnt` (R21, R88, R93). -/
def insertDataBit (b : Bit) (cnt : BitVec 3) (acc : BitVec 8) : BitVec 8 :=
  acc ||| ((BitVec.ofBool b).setWidth 8 <<< cnt.toNat)

/-- `((eacc << 1) | t)[7:0]`: the latest bit character enters at bit 0 (R67). -/
def appendGroupBit (t : Bit) (eacc : BitVec 8) : BitVec 8 :=
  (eacc <<< 1) ||| (BitVec.ofBool t).setWidth 8

/-- `eacc[0], eacc[1], …, eacc[k-1]`: a group of `k` bits in wire order (R54, R68). -/
def groupBits (k : Nat) (eacc : BitVec 8) : List Bit :=
  (List.range k).map eacc.getLsbD

/-- `SymDecode` answers a logical bit or `Illegal` (R59). -/
inductive SymResult where
  | bit (b : Bit)
  | illegal
  deriving DecidableEq, Repr

/-- `SymDecode(c1, c2)`, `c1` first in time (R59). -/
def symDecode (c1 c2 : Chip) : SymResult :=
  match c1, c2 with
  | false, true => .bit false
  | true, false => .bit true
  | false, false => .illegal
  | true, true => .illegal

/-- The two chips of `SymEncode(b)`, in order (R58). -/
def symChips (b : Bit) : List Chip :=
  if b = false then [false, true] else [true, false]

end Sys2Proof.Machine
end

