-- ==== Sys2Proof/Machine/Flags.lean ====
section
/-! DEFINITION. The counters and the tests computed inside a step: run counting, the stuffed mark, IllegalRun, the
stuffing trigger and the frame separator (spec/42_phase_channel.md R88 to R90, spec/41_encoder.md R69 to R72,
spec/43_decoder.md R104). -/

namespace Sys2Proof.Machine

/-- IllegalRun: this one would be the seventh (R89). -/
def isIllegalRun (b : Bit) (run : BitVec 3) : Bool :=
  b && decide (run.toNat = Config.maxRun)

/-- The stuffed mark: a zero whose preceding one-run, read before the zero, is exactly 5 (R90). -/
def isStuffed (b : Bit) (run : BitVec 3) : Bool :=
  !b && decide (run.toNat = Config.stuffRun)

/-- The one-run counter after a legal bit (R88, R89). -/
def nextRun (b : Bit) (run : BitVec 3) : BitVec 3 :=
  if b then run + 1 else 0

/-- The sync-match test on a window (R92). -/
def isSyncWord (win : BitVec 8) : Bool := decide (win = Config.syncWord)

/-- Stuffing activation: at least 8 logical bits of the frame were sent before this one (R70). -/
def stuffActive (sbits : BitVec 4) : Bool := decide (Config.stuffStart ≤ sbits.toNat)

/-- The one-count after a logical bit, saturating at 7 (R71). -/
def nextOnes (w : Bit) (ones : BitVec 3) : BitVec 3 :=
  if w then BitVec.ofNat 3 (sat Config.onesLimit (ones.toNat + 1)) else 0

/-- The frame bit count after a logical bit, saturating at 8 (R69). -/
def nextSbits (sbits : BitVec 4) : BitVec 4 :=
  BitVec.ofNat 4 (sat Config.sbitsLimit (sbits.toNat + 1))

/-- `Trigger(ones)`, the test `P_STUFF_TRIGGER` selects (R72). -/
def trigger (p : StuffTrigger) (ones : BitVec 3) : Bool :=
  match p with
  | .eq => decide (ones.toNat = Config.stuffRun)
  | .ge => decide (Config.stuffRun ≤ ones.toNat)

/-- Whether a stuffed zero follows the logical bit `w` (R69, R70, R72): `ones` already counts `w`, `sbits` does
not. -/
def stuffDue (p : StuffTrigger) (w : Bit) (sbits : BitVec 4) (ones : BitVec 3) : Bool :=
  w && stuffActive sbits && trigger p ones

/-- The separator bit of the next emitted byte: first byte of a frame, after an earlier frame's byte (R104). -/
def separatorDue (d : Dec) : Bool := d.emittedAny && !d.frameOut

end Sys2Proof.Machine
end

