-- ==== Sys2Proof/Machine/Ops.lean ====
section
/-! DEFINITION. The shared operations of the meanings: the procedures the spec names, on the registers and the
output sequence of the unit that runs them (spec/41_encoder.md, spec/42_phase_channel.md, spec/43_decoder.md). -/

namespace Sys2Proof.Machine

/-! ### Encoder unit -/

/-- `emit(t)` in `ENC` (R9). -/
def Enc.emit (t : EncToken) (e : Enc) : Enc := { e with out := e.out ++ [t] }

/-- `emit` of several tokens in order (R9). -/
def Enc.emitAll (ts : List EncToken) (e : Enc) : Enc := { e with out := e.out ++ ts }

/-- `SymEncode(b)`: the two chips of the symbol leave as output tokens; no register is written (R58). -/
def symEncode (b : Bit) (e : Enc) : Enc := e.emitAll ((symChips b).map EncToken.chip)

/-- `EncodeBit(w)`: one logical bit through the bit-stuffer and the symbol encoder (R69). -/
def encodeBit (p : StuffTrigger) (w : Bit) (e : Enc) : Enc :=
  let sent := symEncode w e
  let counted := { sent with ones := nextOnes w e.ones, sbits := nextSbits e.sbits }
  if stuffDue p w e.sbits counted.ones then { symEncode false counted with ones := 0 } else counted

/-- `EncodeBit` of several bits in wire order. -/
def encodeBits (p : StuffTrigger) (ws : List Bit) (e : Enc) : Enc :=
  ws.foldl (fun e w => encodeBit p w e) e

/-- `Serialize(k)`: the group's bits leave lowest-order first, then the group is empty (R68). -/
def serialize (p : StuffTrigger) (k : Nat) (e : Enc) : Enc :=
  { encodeBits p (groupBits k e.eacc) e with eacc := 0x00, ecnt := 0 }

/-- `PackBit(t)`: a bit character joins the group, which is sent at its eighth bit (R67). -/
def packBit (p : StuffTrigger) (t : Bit) (e : Enc) : Enc :=
  let packed := { e with eacc := appendGroupBit t e.eacc }
  let n := e.ecnt.toNat + 1
  if n = Config.byteWidth then serialize p Config.byteWidth packed
  else { packed with ecnt := BitVec.ofNat 3 n }

/-- The partial group of a frame's end: `if ecnt > 0: Serialize(ecnt)` (R81, R82, R84). -/
def flushGroup (p : StuffTrigger) (e : Enc) : Enc :=
  if 0 < e.ecnt.toNat then serialize p e.ecnt.toNat e else e

/-- `FrameResetEnc()` (R74). -/
def frameResetEnc (e : Enc) : Enc := { e with eacc := 0x00, ecnt := 0, ones := 0, sbits := 0 }

/-- A frame delimiter in `ENC`: partial group, then the delimiter's token, then the frame reset (R81, R82). -/
def endFrameEnc (p : StuffTrigger) (k : DelimKind) (e : Enc) : Enc :=
  frameResetEnc ((flushGroup p e).emit (.delim k))

/-- The end of the telegram in `ENC`: partial group, no token, then the frame reset (R84). -/
def endTelegramEnc (p : StuffTrigger) (e : Enc) : Enc :=
  frameResetEnc (flushGroup p e)

/-! ### Phase channel -/

/-- `ChannelError(i)`: the channel's registers go to their reset values; nothing is emitted, recorded or saved, and
the other channel is untouched (R86, R121, R125). -/
def channelError (i : Chan) (d : Dec) : Dec :=
  d.setCh i { win := 0x00, run := 0, acc := 0x00, cnt := 0, sync := false }

/-- The two error causes of the decoder unit. The names stand for the spec's codes 1 and 2, which no register holds
and no port shows (R118). -/
inductive ErrorCause where
  | illegalSymbol
  | illegalRun
  deriving DecidableEq, Repr

/-- Taking an exception: `raise IllegalSymbol(i)` and `raise IllegalRun(i)` both run `ChannelError(i)` and end the
channel's step (R85, R119, R120, R125). Nothing is saved, so there is no return from it to model: the next input
word is processed by the normal rules (R126). -/
def raiseError (cause : ErrorCause) (i : Chan) (d : Dec) : Dec :=
  match cause with
  | .illegalSymbol => channelError i d
  | .illegalRun => channelError i d

/-- `EmitByte(v)`: the byte with its separator bit (R104). -/
def emitByte (v : Byte) (d : Dec) : Dec :=
  { d with out := d.out ++ [⟨v, separatorDue d⟩], emittedAny := true, frameOut := true }

/-- The sync match of channel `i`: the other channel is deactivated and its accumulator cleared, channel `i` becomes
Synchronized with an empty accumulator, and the sync byte is emitted (R92). -/
def syncMatch (i : Chan) (d : Dec) : Dec :=
  let quiet := d.setCh i.other { d.ch i.other with sync := false, acc := 0x00, cnt := 0 }
  let locked := quiet.setCh i { quiet.ch i with sync := true, acc := 0x00, cnt := 0 }
  emitByte Config.syncWord locked

/-- A data bit enters the accumulator of channel `i`; the eighth one emits the byte and empties it (R93). -/
def appendData (i : Chan) (b : Bit) (d : Dec) : Dec :=
  let c := d.ch i
  let acc := insertDataBit b c.cnt c.acc
  if c.cnt.toNat + 1 = Config.byteWidth then
    (emitByte acc d).setCh i { c with acc := 0x00, cnt := 0 }
  else d.setCh i { c with acc := acc, cnt := c.cnt + 1 }

/-- `ChannelBit(i, b)`: the channel takes a decoded bit, in the order one-run counter and IllegalRun, stuffed mark,
window shift, sync match, data accumulator (R88). -/
def channelBit (i : Chan) (b : Bit) (d : Dec) : Dec :=
  let c := d.ch i
  if isIllegalRun b c.run then raiseError .illegalRun i d
  else
    let shifted := { c with run := nextRun b c.run, win := shiftWindow b c.win }
    if isSyncWord shifted.win then syncMatch i (d.setCh i shifted)
    else if c.sync && !isStuffed b c.run then appendData i b (d.setCh i shifted)
    else d.setCh i shifted

/-- `ChannelStep(i, c1, c2)`: the channel takes the symbol of chips `c1`, `c2` (R85). -/
def channelStep (i : Chan) (c1 c2 : Chip) (d : Dec) : Dec :=
  match symDecode c1 c2 with
  | .illegal => raiseError .illegalSymbol i d
  | .bit b => channelBit i b d

/-! ### Decoder unit -/

/-- `DeliverChip(c)`: the chip goes to channel `sel` with the previous chip of the frame, if there is one; `prev`
keeps it and `sel` toggles (R100, R101). -/
def deliverChip (c : Chip) (d : Dec) : Dec :=
  let i := d.sel
  let stepped :=
    match d.prev with
    | none => d
    | some p => channelStep i p c d
  { stepped with prev := some c, sel := i.other }

/-- `FrameResetDec()`: every register but `emittedAny` (R105). -/
def frameResetDec (d : Dec) : Dec :=
  { d with
    prev := none
    sel := .a
    chA := { win := 0x00, run := 0, acc := 0x00, cnt := 0, sync := false }
    chB := { win := 0x00, run := 0, acc := 0x00, cnt := 0, sync := false }
    frameOut := false }

/-- `TelegramResetDec()` (R106). -/
def telegramResetDec (d : Dec) : Dec := { frameResetDec d with emittedAny := false }

/-! ### Both units -/

/-- The reset input: every register of both units to its reset value, frame and telegram registers alike. Nothing is
flushed, so the output sequences keep just what has left (R131, R132). -/
def applyReset (s : State) : State :=
  { s with
    dec := { Dec.reset with out := s.dec.out }
    enc := { Enc.reset with out := s.enc.out } }

/-- The host offers a word before all that it still offers. -/
def State.offerFirst (o : Offer) (s : State) : State := { s with input := .word o :: s.input }

end Sys2Proof.Machine
end

