-- ==== Sys2Proof/Machine/Codec.lean ====
section
/-! DEFINITION. The meanings of the symbol codec's operations (spec/40_symbol_codec.md, sections 2 and 3). The encode
operations emit on the output of `ENC` (R58). A decode operation hands its result to the phase channel that asked,
which processes the bit or takes IllegalSymbol (R62 to R65, R85; DEDUCED, log entry 4). -/

namespace Sys2Proof.Machine

/-- `CODEC.ENC0` (R60). -/
def execCodecEnc0 (s : State) : Host.Outcome State Fault Refusal :=
  .next { s with enc := symEncode false s.enc }

/-- `CODEC.ENC1` (R61). -/
def execCodecEnc1 (s : State) : Host.Outcome State Fault Refusal :=
  .next { s with enc := symEncode true s.enc }

/-- `SYM.01` in channel `i` (R62). -/
def execSym01 (i : Chan) (s : State) : Host.Outcome State Fault Refusal :=
  .next { s with dec := channelStep i false true s.dec }

/-- `SYM.10` in channel `i` (R63). -/
def execSym10 (i : Chan) (s : State) : Host.Outcome State Fault Refusal :=
  .next { s with dec := channelStep i true false s.dec }

/-- `SYM.00` in channel `i`: IllegalSymbol (R64). -/
def execSym00 (i : Chan) (s : State) : Host.Outcome State Fault Refusal :=
  .next { s with dec := channelStep i false false s.dec }

/-- `SYM.11` in channel `i`: IllegalSymbol (R65). -/
def execSym11 (i : Chan) (s : State) : Host.Outcome State Fault Refusal :=
  .next { s with dec := channelStep i true true s.dec }

end Sys2Proof.Machine
end

