-- ==== Sys2Proof/Machine/Decoder.lean ====
section
/-! DEFINITION. The meanings of the decoder unit's operations (spec/43_decoder.md, section 2). -/

namespace Sys2Proof.Machine

/-- `DEC.CHIP0` (R108). -/
def execDecChip0 (s : State) : Host.Outcome State Fault Refusal :=
  .next { s with dec := deliverChip false s.dec }

/-- `DEC.CHIP1` (R109). -/
def execDecChip1 (s : State) : Host.Outcome State Fault Refusal :=
  .next { s with dec := deliverChip true s.dec }

/-- `DEC.DELIM_BAR` (R110). -/
def execDecDelimBar (s : State) : Host.Outcome State Fault Refusal :=
  .next { s with dec := frameResetDec s.dec }

/-- `DEC.DELIM_NL` (R111). -/
def execDecDelimNl (s : State) : Host.Outcome State Fault Refusal :=
  .next { s with dec := frameResetDec s.dec }

/-- `DEC.NOISE`: no operation (R112). -/
def execDecNoise (_char : Byte) (s : State) : Host.Outcome State Fault Refusal :=
  .next s

/-- `DEC.END`; the word's `char` bits are ignored (R113). -/
def execDecEnd (_char : Byte) (s : State) : Host.Outcome State Fault Refusal :=
  .next { s with dec := telegramResetDec s.dec }

end Sys2Proof.Machine
end

