-- ==== Sys2Proof/Machine/Encoder.lean ====
section
/-! DEFINITION. The meanings of the encoder unit's operations (spec/41_encoder.md, section 3). -/

namespace Sys2Proof.Machine

/-- `ENC.BIT0` (R79). -/
def execEncBit0 (s : State) : Host.Outcome State Fault Refusal :=
  .next { s with enc := packBit s.cfg.stuffTrigger false s.enc }

/-- `ENC.BIT1` (R80). -/
def execEncBit1 (s : State) : Host.Outcome State Fault Refusal :=
  .next { s with enc := packBit s.cfg.stuffTrigger true s.enc }

/-- `ENC.DELIM_BAR` (R81). -/
def execEncDelimBar (s : State) : Host.Outcome State Fault Refusal :=
  .next { s with enc := endFrameEnc s.cfg.stuffTrigger .bar s.enc }

/-- `ENC.DELIM_NL` (R82). -/
def execEncDelimNl (s : State) : Host.Outcome State Fault Refusal :=
  .next { s with enc := endFrameEnc s.cfg.stuffTrigger .nl s.enc }

/-- `ENC.NOISE`: no operation (R83). -/
def execEncNoise (_char : Byte) (s : State) : Host.Outcome State Fault Refusal :=
  .next s

/-- `ENC.END`; the word's `char` bits are ignored (R84). -/
def execEncEnd (_char : Byte) (s : State) : Host.Outcome State Fault Refusal :=
  .next { s with enc := endTelegramEnc s.cfg.stuffTrigger s.enc }

end Sys2Proof.Machine
end

