-- ==== Sys2Proof/Machine/Dispatch.lean ====
section
/-! DEFINITION. One arm per operation. -/

namespace Sys2Proof.Machine

def exec (i : Instr) (s : State) : Host.Outcome State Fault Refusal :=
  match i with
  | .decChip0 => Sys2Proof.Machine.execDecChip0 s
  | .decChip1 => Sys2Proof.Machine.execDecChip1 s
  | .decDelimBar => Sys2Proof.Machine.execDecDelimBar s
  | .decDelimNl => Sys2Proof.Machine.execDecDelimNl s
  | .decNoise char => Sys2Proof.Machine.execDecNoise char s
  | .decEnd char => Sys2Proof.Machine.execDecEnd char s
  | .encBit0 => Sys2Proof.Machine.execEncBit0 s
  | .encBit1 => Sys2Proof.Machine.execEncBit1 s
  | .encDelimBar => Sys2Proof.Machine.execEncDelimBar s
  | .encDelimNl => Sys2Proof.Machine.execEncDelimNl s
  | .encNoise char => Sys2Proof.Machine.execEncNoise char s
  | .encEnd char => Sys2Proof.Machine.execEncEnd char s
  | .codecEnc0 => Sys2Proof.Machine.execCodecEnc0 s
  | .codecEnc1 => Sys2Proof.Machine.execCodecEnc1 s
  | .sym01 i' => Sys2Proof.Machine.execSym01 i' s
  | .sym10 i' => Sys2Proof.Machine.execSym10 i' s
  | .sym00 i' => Sys2Proof.Machine.execSym00 i' s
  | .sym11 i' => Sys2Proof.Machine.execSym11 i' s

end Sys2Proof.Machine
end

