-- ==== Sys2Proof/Machine/Step.lean ====
section
/-! DEFINITION. One step of the machine: the next input word is taken, decoded and run; `rst` acts between two
steps; with nothing offered the units wait (spec/20_memory.md R36, R42, spec/70_reset_and_hazards.md R131, R132). -/

namespace Sys2Proof.Machine

/-- One step (log entries 1, 6, 7). -/
def step (s : State) : Host.Outcome State Fault Refusal :=
  match s.input with
  | [] => .next s
  | .rst :: rest => .next (applyReset { s with input := rest })
  | .word o :: rest => exec (decode o) { s with input := rest }

/-- The state whose next step takes the word of these opcode-table bits: the host offers it before all else (log
entries 1, 3). Bits that are no word of the table's formats offer nothing. -/
def State.withFetchWord (s : State) (nbits w : Nat) : State :=
  match tableOffer nbits w with
  | some o => s.offerFirst o
  | none => s

end Sys2Proof.Machine
end

