-- ==== Sys2Proof/Machine/Output.lean ====
section
/-! DEFINITION. The output token formats (spec/30_encoding.md R53) and the host's text syntax (R57, R48). The core
never sees text: no operation calls these functions. -/

namespace Sys2Proof.Machine

/-- `out_kind`, 2 bits (R53). -/
def EncToken.outKind : EncToken → BitVec 2
  | .chip false => 0b00
  | .chip true => 0b01
  | .delim .bar => 0b10
  | .delim .nl => 0b11

/-- `out_sep` and `out_byte` as one 9-bit word, `out_sep` in bit 8 (R46, R53). -/
def DecToken.outWord (t : DecToken) : BitVec 9 := BitVec.cons t.sep t.byte

/-- The input word of a character of text. A character that does not fit in 8 bits becomes a `NOISE` code (R48
leaves the host that or dropping it; DESIGN CHOICE, log entry 11). -/
def wordOfChar (c : Char) : InWord :=
  if c.toNat < 256 then inWord false (BitVec.ofNat 8 c.toNat) else inWord false 0x00

/-- Input text: one word per character, then one `END` word (R57). -/
def wordsOfText (text : List Char) : List InWord := text.map wordOfChar ++ [inWord true 0x00]

/-- The character of a binary digit. -/
def charOfBit (b : Bool) : Char := if b then '1' else '0'

/-- The 8 binary digits of a byte, most significant first (R57). -/
def textOfByte (v : Byte) : List Char :=
  [7, 6, 5, 4, 3, 2, 1, 0].map fun k => charOfBit (v.getLsbD k)

/-- `DEC` output as text: a newline before a byte whose separator bit is set (R57). -/
def textOfDec (ts : List DecToken) : List Char :=
  ts.flatMap fun t => (if t.sep then ['\n'] else []) ++ textOfByte t.byte

/-- The character of an `ENC` token (R57). -/
def charOfEncToken : EncToken → Char
  | .chip c => charOfBit c
  | .delim .bar => '|'
  | .delim .nl => '\n'

/-- `ENC` output as text (R57). -/
def textOfEnc (ts : List EncToken) : List Char := ts.map charOfEncToken

end Sys2Proof.Machine
end

