-- ==== Sys2Proof/Safety.lean ====
section
/-! DEFINITION. What a safe state is, and the words claims are made in: the invariant of the registers
(spec/10_state.md), runs over a list of offered words, and the plain reference functions the encoder is compared
with. -/

namespace Sys2Proof.Machine

/-! ### The invariant -/

/-- What holds of a channel at every step boundary: the one-run never exceeds 6 (R20), accumulator bits at or above
`cnt` are 0 (R21), a Searching channel has an empty accumulator (R86, R92), and the window's top bits are exactly the
current one-run: `run` ones and, below them, a zero (R89, R91). -/
abbrev Channel.Inv (c : Channel) : Prop :=
  c.run.toNat ≤ 6 ∧
  c.acc.toNat < 2 ^ c.cnt.toNat ∧
  (c.sync = false → c.acc = 0x00 ∧ c.cnt = 0) ∧
  c.win.toNat / 2 ^ (7 - c.run.toNat) = 2 ^ (c.run.toNat + 1) - 2

/-- At most one channel is Synchronized (R25). -/
abbrev Dec.SingleActive (d : Dec) : Prop := ¬ (d.chA.sync = true ∧ d.chB.sync = true)

/-- What holds of the decoder unit at every step boundary: both channels' invariants, at most one Synchronized
channel (R25), a Synchronized channel has emitted in this frame (R92, R104, R105), a frame's byte is a byte of the
telegram (R104 to R106), and without a previous chip Channel A is next (R101, R105). -/
abbrev Dec.Inv (d : Dec) : Prop :=
  d.chA.Inv ∧ d.chB.Inv ∧ d.SingleActive ∧
  (d.chA.sync = true ∨ d.chB.sync = true → d.frameOut = true) ∧
  (d.frameOut = true → d.emittedAny = true) ∧
  (d.prev = none → d.sel = .a)

/-- What holds of the encoder unit at every step boundary: buffer bits at or above `ecnt` are 0 (R28, R67, R68), and
the frame bit count is 0, with no one counted, or saturated at 8, since whole groups of 8 are sent within a frame
(R31, R67, R69, R74). -/
abbrev Enc.Inv (e : Enc) : Prop :=
  e.eacc.toNat < 2 ^ e.ecnt.toNat ∧
  ((e.sbits = 0 ∧ e.ones = 0) ∨ e.sbits = 8)

/-- A safe state. -/
abbrev State.Inv (s : State) : Prop := s.dec.Inv ∧ s.enc.Inv

/-! ### Offered words and runs -/

/-- The input word of a digit character: a chip for `DEC`, a logical bit for `ENC` (R48). -/
def digitWord (b : Bool) : InWord := inWord false (if b then Config.charOne else Config.charZero)

/-- A digit offered to the decoder unit. -/
def decDigit (c : Chip) : Event := .word (.dec (digitWord c))

/-- A digit offered to the encoder unit. -/
def encDigit (t : Bit) : Event := .word (.enc (digitWord t))

/-- The `END` word offered to the encoder unit. -/
def encEndWord : Event := .word (.enc (inWord true 0x00))

/-- The word that ends a frame, offered to the encoder unit: `END`, or a delimiter (R48, R81, R82, R84). -/
def encFrameEnd : Option DelimKind → Event
  | none => encEndWord
  | some .bar => .word (.enc (inWord false Config.charBar))
  | some .nl => .word (.enc (inWord false Config.charLineFeed))

/-- The legal symbol of a logical bit, given to channel `i` alone. -/
def symOf (i : Chan) (b : Bit) : Event := .word (.sym i (if b then 0b10 else 0b01))

/-- A word of class `NOISE` (R48). -/
def isNoiseWord (w : InWord) : Bool := !w.getLsbD 8 && isNoiseChar (w.setWidth 8)

/-- The run of the machine from `s` over the events `evs` and nothing else: one step for each. -/
def run (evs : List Event) (s : State) : Host.Outcome State Fault Refusal :=
  Host.Core.run Sys2Proof.core evs.length { s with input := evs }

/-! ### Reference functions -/

/-- `{b, win[7:1]}` in the spec's own notation (R8, R91). -/
def windowAfter (b : Bit) (win : BitVec 8) : BitVec 8 := BitVec.ofBool b ++ win.extractLsb 7 1

/-- A channel at its reset values (R34). -/
def clearedChannel : Channel := ⟨0x00, 0, 0x00, 0, false⟩

/-- The decoder unit at the start of a frame, the telegram's first or a later one: every frame register is at its reset
value; `emittedAny` and the output sequence are any (R34, R105, R133). -/
abbrev Dec.FrameStart (d : Dec) : Prop :=
  d.prev = none ∧ d.sel = .a ∧ d.chA = clearedChannel ∧ d.chB = clearedChannel ∧ d.frameOut = false

/-- The encoder unit at the start of a frame: every register is at its reset value; the output sequence is any (R34,
R74, R133). -/
abbrev Enc.FrameStart (e : Enc) : Prop := e.eacc = 0x00 ∧ e.ecnt = 0 ∧ e.ones = 0 ∧ e.sbits = 0

/-- The chips of logical bits without stuffing: 0 is `01` and 1 is `10` (R58). -/
def manchester (bs : List Bit) : List Chip := bs.flatMap fun b => [b, !b]

/-- The tokens of a logical one, with a stuffed zero after it or without (R58, R73). -/
def oneTokens (stuffed : Bool) : List EncToken :=
  if stuffed then [.chip true, .chip false, .chip false, .chip true] else [.chip true, .chip false]

/-- The bits of a group buffer holding `k` of them, lowest-order first (R54, R68). -/
def bufferBits (k : Nat) (eacc : BitVec 8) : List Bit := (List.range k).map eacc.getLsbD

/-- The text of a byte, most significant bit first (R57). -/
def byteText (v : Byte) : List Bit := [7, 6, 5, 4, 3, 2, 1, 0].map v.getLsbD

/-- Text order to wire order: groups of 8 bits counted from the frame's start, each reversed, a short last group too
(R10, R39). `grp` holds the bits of the group being collected, latest first. -/
def wireOrder (grp : List Bit) : List Bit → List Bit
  | [] => grp
  | t :: ts => if grp.length = 7 then (t :: grp) ++ wireOrder [] ts else wireOrder (t :: grp) ts

/-- Whether a stuffed zero follows the bit `w`, on counters that never saturate: `sbits` logical bits were sent
before `w`, and `ones` counts the one-run up to and with `w` (R70, R72). -/
def wideStuffDue (p : StuffTrigger) (w : Bit) (sbits ones : Nat) : Bool :=
  w && decide (8 ≤ sbits) &&
    (match p with
     | .eq => decide (ones = 5)
     | .ge => decide (5 ≤ ones))

/-- The chips the bits `ws` leave as, on counters that never saturate, starting from a one-run of `ones` and `sbits`
logical bits sent in the frame (R69 to R73). -/
def wideChips (p : StuffTrigger) : List Bit → Nat → Nat → List Chip
  | [], _, _ => []
  | w :: ws, ones, sbits =>
    let ones' := if w then ones + 1 else 0
    if wideStuffDue p w sbits ones' then [w, !w, false, true] ++ wideChips p ws 0 (sbits + 1)
    else [w, !w] ++ wideChips p ws ones' (sbits + 1)

/-- The one-run after the bits `ws`, on counters that never saturate. -/
def wideOnes (p : StuffTrigger) : List Bit → Nat → Nat → Nat
  | [], ones, _ => ones
  | w :: ws, ones, sbits =>
    let ones' := if w then ones + 1 else 0
    wideOnes p ws (if wideStuffDue p w sbits ones' then 0 else ones') (sbits + 1)

end Sys2Proof.Machine
end

