-- ==== Sys2Proof/Certificates/Slice0/Obligations.lean ====
section
/-! DEFINITION. The statements for the provers. A docstring names the rule of spec/ it formalises; one marked
"derived" rests on rules the spec marks as its own inference, on a combination of rules, or on a model choice it names. -/

open Sys2Proof Sys2Proof.Machine

/-! ### Encodings -/

/-- R49: the decoder unit's operation of every input word. -/
def Obligations.DecoderOperationOfEveryInputWord : Prop :=
  decode (.dec 0x030) = .decChip0 ∧ decode (.dec 0x031) = .decChip1 ∧
  decode (.dec 0x07C) = .decDelimBar ∧ decode (.dec 0x00A) = .decDelimNl ∧
  (∀ c : Byte, c ≠ 0x30 → c ≠ 0x31 → c ≠ 0x7C → c ≠ 0x0A →
    decode (.dec (0#1 ++ c)) = .decNoise c) ∧
  (∀ c : Byte, decode (.dec (1#1 ++ c)) = .decEnd c)

/-- R50: the encoder unit's operation of every input word. -/
def Obligations.EncoderOperationOfEveryInputWord : Prop :=
  decode (.enc 0x030) = .encBit0 ∧ decode (.enc 0x031) = .encBit1 ∧
  decode (.enc 0x07C) = .encDelimBar ∧ decode (.enc 0x00A) = .encDelimNl ∧
  (∀ c : Byte, c ≠ 0x30 → c ≠ 0x31 → c ≠ 0x7C → c ≠ 0x0A →
    decode (.enc (0#1 ++ c)) = .encNoise c) ∧
  (∀ c : Byte, decode (.enc (1#1 ++ c)) = .encEnd c)

/-- R51: the four symbols, their 2-bit values and what they decode to, and the chips the encoder sends for a bit. -/
def Obligations.SymbolFormat : Prop :=
  (∀ i, decode (.sym i 0b01) = .sym01 i ∧ decode (.sym i 0b10) = .sym10 i ∧
    decode (.sym i 0b00) = .sym00 i ∧ decode (.sym i 0b11) = .sym11 i) ∧
  symDecode false true = .bit false ∧ symDecode true false = .bit true ∧
  symDecode false false = .illegal ∧ symDecode true true = .illegal ∧
  symChips false = [false, true] ∧ symChips true = [true, false]

/-- A few words of the opcode table, one for each family, decode to their rows (derived: a sanity statement; that the
table's `DEC` reading is taken of words that `ENC` shares is the model's choice, log entry 3). -/
def Obligations.TableWordsDecode : Prop :=
  decodeTableWord 16 0x030 = some .decChip0 ∧ decodeTableWord 16 0x07C = some .decDelimBar ∧
  decodeTableWord 16 0x078 = some (.decNoise 0x78) ∧ decodeTableWord 16 0x100 = some (.decEnd 0x00) ∧
  decode (.enc 0x031) = .encBit1 ∧ decode (.enc 0x00A) = .encDelimNl ∧ decode (.codec 0b1) = .codecEnc1 ∧
  decodeTableWord 8 0b10 = some (.sym10 .a)

/-- Decode and encode agree on every well-formed operation, on its word and on its bytes (derived from R47 to R51; the
byte layout is the model's choice, log entry 9). -/
def Obligations.DecodeOfEncodeIsTheOperation : Prop :=
  ∀ i : Instr, i.wf = true →
    decode (encode i) = i ∧
    ∀ rest : List Byte, decodeBytes i.port (encodeBytes i ++ rest) = .ok (i, rest)

/-- Every word has exactly one meaning: it decodes to a well-formed operation whose word it is (derived from R55, "No
word is reserved and no word traps"). -/
def Obligations.EveryWordIsTheWordOfItsOperation : Prop :=
  ∀ o : Offer, (decode o).wf = true ∧ encode (decode o) = o

/-! ### Symbol codec -/

/-- R58, R60, R61: the encode operations, selected by the 1-bit inputs 0 and 1, emit the two chips of the symbol and
write no register. -/
def Obligations.CodecEncodeEmitsTheSymbol : Prop :=
  decode (.codec 0b0) = .codecEnc0 ∧ decode (.codec 0b1) = .codecEnc1 ∧
  ∀ s : State,
    exec .codecEnc0 s =
      .next { s with enc := { s.enc with out := s.enc.out ++ [.chip false, .chip true] } } ∧
    exec .codecEnc1 s =
      .next { s with enc := { s.enc with out := s.enc.out ++ [.chip true, .chip false] } }

/-- The codec's round trip (derived: R66 is the spec's own inference): the two chips an encode operation emits decode
to its bit, so they are never an illegal symbol. -/
def Obligations.CodecRoundTrip : Prop :=
  ∀ (b : Bit) (s : State), ∃ c1 c2 : Chip,
    exec (if b then .codecEnc1 else .codecEnc0) s =
      .next { s with enc := { s.enc with out := s.enc.out ++ [.chip c1, .chip c2] } } ∧
    symDecode c1 c2 = .bit b

/-! ### Phase channel -/

/-- R86: an illegal symbol resets the five registers of the channel that got it, emits nothing and changes
nothing else of the machine. -/
def Obligations.IllegalSymbolResetsItsChannelOnly : Prop :=
  ∀ s : State,
    (exec (.sym00 .a) s = .next { s with dec := { s.dec with chA := clearedChannel } } ∧
     exec (.sym11 .a) s = .next { s with dec := { s.dec with chA := clearedChannel } }) ∧
    (exec (.sym00 .b) s = .next { s with dec := { s.dec with chB := clearedChannel } } ∧
     exec (.sym11 .b) s = .next { s with dec := { s.dec with chB := clearedChannel } })

/-- R89: a decoded one adds 1 to the one-run, a decoded zero sets it to 0, and the seventh one raises IllegalRun
instead, which resets the channel as an illegal symbol does; a run of exactly six ones is legal. -/
def Obligations.OneRunCountsAndSeventhOneIsIllegal : Prop :=
  ∀ (i : Chan) (s : State),
    (∃ t, exec (.sym01 i) s = .next t ∧ (t.dec.ch i).run = 0) ∧
    ((s.dec.ch i).run.toNat < 6 →
      ∃ t, exec (.sym10 i) s = .next t ∧ (t.dec.ch i).run.toNat = (s.dec.ch i).run.toNat + 1) ∧
    ((s.dec.ch i).run = 6 →
      exec (.sym10 i) s = .next { s with dec := s.dec.setCh i clearedChannel })

/-- R91: every decoded bit that IllegalRun does not drop enters the window at bit 7, stuffed or not, and the rest of
the window shifts right. -/
def Obligations.DecodedBitEntersTheSyncWindow : Prop :=
  ∀ (i : Chan) (s : State),
    (∃ t, exec (.sym01 i) s = .next t ∧ (t.dec.ch i).win = windowAfter false (s.dec.ch i).win) ∧
    ((s.dec.ch i).run ≠ 6 →
      ∃ t, exec (.sym10 i) s = .next t ∧ (t.dec.ch i).win = windowAfter true (s.dec.ch i).win)

/-- R92: when the shifted window is the sync word, the channel becomes Synchronized with an empty accumulator, the
other channel is deactivated with an empty accumulator but keeps its window and run, the sync byte is emitted through
`EmitByte`, and nothing else changes. A one never completes the word, so the match is at a decoded zero. -/
def Obligations.SyncMatchLocksTheChannelAndEmitsTheSyncByte : Prop :=
  (∀ win : BitVec 8, windowAfter true win ≠ 0x7E) ∧
  ∀ (i : Chan) (s : State), windowAfter false (s.dec.ch i).win = 0x7E →
    ∃ t, exec (.sym01 i) s = .next t ∧
      t.dec.ch i = ⟨0x7E, 0, 0x00, 0, true⟩ ∧
      t.dec.ch i.other = { s.dec.ch i.other with sync := false, acc := 0x00, cnt := 0 } ∧
      t.dec.out = s.dec.out ++ [⟨0x7E, s.dec.emittedAny && !s.dec.frameOut⟩] ∧
      t.dec.emittedAny = true ∧ t.dec.frameOut = true ∧
      t.dec.prev = s.dec.prev ∧ t.dec.sel = s.dec.sel ∧
      t.cfg = s.cfg ∧ t.enc = s.enc ∧ t.input = s.input

/-- A zero after exactly five ones is stuffed (derived from R90, R91, R93 and the channel's invariant, which rules out a
match on it): it enters the window and leaves the accumulator, the bit count and all the rest of the machine as they
were, in a Synchronized channel and in a Searching one. -/
def Obligations.StuffedZeroIsNotData : Prop :=
  ∀ (i : Chan) (s : State), (s.dec.ch i).Inv → (s.dec.ch i).run = 5 →
    exec (.sym01 i) s = .next { s with
      dec := s.dec.setCh i { s.dec.ch i with
        run := 0
        win := windowAfter false (s.dec.ch i).win } }

/-- R93: a bit that completes no match and is not stuffed goes into a Synchronized channel's accumulator at position
`cnt`, and the eighth data bit emits the byte and empties the accumulator; a Searching channel never appends. -/
def Obligations.DataBitGoesToTheAccumulator : Prop :=
  ∀ (i : Chan) (b : Bit) (s : State),
    let c := s.dec.ch i
    let win : BitVec 8 := windowAfter b c.win
    let run : BitVec 3 := if b then c.run + 1 else 0
    let acc : BitVec 8 := c.acc ||| ((BitVec.ofBool b).setWidth 8 <<< c.cnt.toNat)
    let op : Instr := if b then .sym10 i else .sym01 i
    win ≠ 0x7E → ¬ (b = true ∧ c.run = 6) →
      (c.sync = false →
        exec op s = .next { s with dec := s.dec.setCh i { c with win := win, run := run } }) ∧
      (c.sync = true → ¬ (b = false ∧ c.run = 5) → c.cnt.toNat < 7 →
        exec op s = .next { s with
          dec := s.dec.setCh i { c with win := win, run := run, acc := acc, cnt := c.cnt + 1 } }) ∧
      (c.sync = true → ¬ (b = false ∧ c.run = 5) → c.cnt = 7 →
        exec op s = .next { s with
          dec := { s.dec.setCh i { c with win := win, run := run, acc := 0x00, cnt := 0 } with
            out := s.dec.out ++ [⟨acc, s.dec.emittedAny && !s.dec.frameOut⟩]
            emittedAny := true
            frameOut := true } })

/-- A stuffed zero never completes a sync match (derived: R97 is the spec's own inference). A zero after exactly five
ones, given to a channel that meets its invariant as a symbol or as the chips `0` and `1`, emits nothing, sets neither
emission flag and changes `sync` in neither channel. -/
def Obligations.StuffedZeroNeverCompletesAMatch : Prop :=
  (∀ (i : Chan) (s : State), (s.dec.ch i).Inv → (s.dec.ch i).run = 5 →
    ∃ t, exec (.sym01 i) s = .next t ∧ t.dec.out = s.dec.out ∧
      t.dec.emittedAny = s.dec.emittedAny ∧ t.dec.frameOut = s.dec.frameOut ∧
      ∀ j, (t.dec.ch j).sync = (s.dec.ch j).sync) ∧
  (∀ s : State, (s.dec.ch s.dec.sel).Inv → (s.dec.ch s.dec.sel).run = 5 → s.dec.prev = some false →
    ∃ t, exec .decChip1 s = .next t ∧ t.dec.out = s.dec.out ∧
      t.dec.emittedAny = s.dec.emittedAny ∧ t.dec.frameOut = s.dec.frameOut ∧
      ∀ j, (t.dec.ch j).sync = (s.dec.ch j).sync)

/-- R98 (derived: the spec's own inference, on decision D14): from a reset window, the seven bits 1,1,1,1,1,1,0 emit
the sync byte, and no sequence of fewer than seven legal symbols emits anything. -/
def Obligations.SevenBitsFromResetCanMatchFewerCannot : Prop :=
  ∀ (i : Chan) (s : State), s.dec.ch i = clearedChannel →
    (∃ t, run ([true, true, true, true, true, true, false].map (symOf i)) s = .next t ∧
      t.dec.out = s.dec.out ++ [⟨0x7E, s.dec.emittedAny && !s.dec.frameOut⟩] ∧
      (t.dec.ch i).sync = true) ∧
    ∀ bs : List Bit, bs.length < 7 →
      ∃ t, run (bs.map (symOf i)) s = .next t ∧ t.dec.out = s.dec.out ∧ (t.dec.ch i).sync = false

/-- Loss of lock (derived from R86, R89, R95): when the Synchronized channel gets an illegal symbol, or a seventh one,
no channel is synchronized afterwards, its partial byte is gone and nothing is emitted, and the other channel's window
and run are as they were. -/
def Obligations.ErrorInTheActiveChannelLosesLock : Prop :=
  ∀ (i : Chan) (s : State), s.dec.SingleActive → (s.dec.ch i).sync = true →
    (∀ op ∈ [Instr.sym00 i, Instr.sym11 i], ∃ t, exec op s = .next t ∧
      t.dec.chA.sync = false ∧ t.dec.chB.sync = false ∧ (t.dec.ch i).acc = 0x00 ∧ (t.dec.ch i).cnt = 0 ∧
      t.dec.out = s.dec.out ∧ t.dec.ch i.other = s.dec.ch i.other) ∧
    ((s.dec.ch i).run = 6 → ∃ t, exec (.sym10 i) s = .next t ∧
      t.dec.chA.sync = false ∧ t.dec.chB.sync = false ∧ (t.dec.ch i).acc = 0x00 ∧ (t.dec.ch i).cnt = 0 ∧
      t.dec.out = s.dec.out ∧ t.dec.ch i.other = s.dec.ch i.other)

/-- R96 (derived with the invariant's clause that a Synchronized channel has emitted in this frame): a sync match in a
channel that is already Synchronized emits `0x7E` without a separator and drops the partial byte. -/
def Obligations.RematchStaysInTheFrame : Prop :=
  ∀ (i : Chan) (s : State), s.dec.Inv → (s.dec.ch i).sync = true →
    windowAfter false (s.dec.ch i).win = 0x7E →
      ∃ t, exec (.sym01 i) s = .next t ∧ t.dec.out = s.dec.out ++ [⟨0x7E, false⟩] ∧
        (t.dec.ch i).sync = true ∧ (t.dec.ch i).acc = 0x00 ∧ (t.dec.ch i).cnt = 0 ∧ t.dec.frameOut = true

/-- The frame of the `SYM` operations in channel `i` (derived from R18, R85, R86, R88, R92, R104): they complete; the
parameters, the encoder unit, the offered input, `prev` and `sel` are as before; the other channel is as before, or a
match has cleared its `sync`, `acc` and `cnt` only; and either nothing is emitted and `emittedAny` and `frameOut` are as
before, or exactly one byte is emitted with the separator bit of R104 and both flags are set. -/
def Obligations.SymbolOperationsFrame : Prop :=
  ∀ (i : Chan) (op : Instr) (s : State), op ∈ [Instr.sym01 i, .sym10 i, .sym00 i, .sym11 i] →
    ∃ t, exec op s = .next t ∧
      t.cfg = s.cfg ∧ t.enc = s.enc ∧ t.input = s.input ∧ t.dec.prev = s.dec.prev ∧ t.dec.sel = s.dec.sel ∧
      (t.dec.ch i.other = s.dec.ch i.other ∨
        t.dec.ch i.other = { s.dec.ch i.other with sync := false, acc := 0x00, cnt := 0 }) ∧
      ((t.dec.out = s.dec.out ∧ t.dec.emittedAny = s.dec.emittedAny ∧ t.dec.frameOut = s.dec.frameOut ∧
          t.dec.ch i.other = s.dec.ch i.other) ∨
       (∃ v, t.dec.out = s.dec.out ++ [⟨v, s.dec.emittedAny && !s.dec.frameOut⟩] ∧
          t.dec.emittedAny = true ∧ t.dec.frameOut = true))

/-! ### Decoder unit -/

/-- R100: the first chip of a frame forms no symbol; it is kept as the previous chip and `sel` toggles, so the
next chip goes to the other channel; nothing else changes. A chip after a chip `p` runs the symbol of the two in the
channel `sel` names, as the symbol's own operation does, then becomes the previous chip, and `sel` toggles. -/
def Obligations.ChipIsDeliveredToTheSelectedChannel : Prop :=
  ∀ s : State,
    (s.dec.prev = none →
      exec .decChip0 s = .next { s with
        dec := { s.dec with prev := some false, sel := if s.dec.sel = .a then .b else .a } } ∧
      exec .decChip1 s = .next { s with
        dec := { s.dec with prev := some true, sel := if s.dec.sel = .a then .b else .a } }) ∧
    (s.dec.prev = some false →
      (∃ t, exec (.sym00 s.dec.sel) s = .next t ∧
        exec .decChip0 s = .next { t with dec := { t.dec with prev := some false, sel := s.dec.sel.other } }) ∧
      (∃ t, exec (.sym01 s.dec.sel) s = .next t ∧
        exec .decChip1 s = .next { t with dec := { t.dec with prev := some true, sel := s.dec.sel.other } })) ∧
    (s.dec.prev = some true →
      (∃ t, exec (.sym10 s.dec.sel) s = .next t ∧
        exec .decChip0 s = .next { t with dec := { t.dec with prev := some false, sel := s.dec.sel.other } }) ∧
      (∃ t, exec (.sym11 s.dec.sel) s = .next t ∧
        exec .decChip1 s = .next { t with dec := { t.dec with prev := some true, sel := s.dec.sel.other } }))

/-- The frame of `DEC.CHIP0` and `DEC.CHIP1` (derived from R18, R100, R103, R104, R114): they complete in every state;
`prev` is the chip and `sel` toggles; the parameters, the encoder unit and the offered input are as before; the channel
that `sel` does not name is as before, or a match has cleared its `sync`, `acc` and `cnt` only; at most one token is
emitted, with the separator bit and the flags of `EmitByte`. -/
def Obligations.ChipOperationsFrame : Prop :=
  ∀ (c : Chip) (s : State),
    ∃ t, exec (if c then .decChip1 else .decChip0) s = .next t ∧
      t.dec.prev = some c ∧ t.dec.sel = s.dec.sel.other ∧
      t.cfg = s.cfg ∧ t.enc = s.enc ∧ t.input = s.input ∧
      (t.dec.ch s.dec.sel.other = s.dec.ch s.dec.sel.other ∨
        t.dec.ch s.dec.sel.other =
          { s.dec.ch s.dec.sel.other with sync := false, acc := 0x00, cnt := 0 }) ∧
      ((t.dec.out = s.dec.out ∧ t.dec.emittedAny = s.dec.emittedAny ∧ t.dec.frameOut = s.dec.frameOut ∧
          t.dec.ch s.dec.sel.other = s.dec.ch s.dec.sel.other) ∨
       (∃ v, t.dec.out = s.dec.out ++ [⟨v, s.dec.emittedAny && !s.dec.frameOut⟩] ∧
          t.dec.emittedAny = true ∧ t.dec.frameOut = true))

/-- Partial bytes are never emitted (derived from R92, R93, R107): a byte a chip operation emits is the sync byte, its
channel just locked with an empty accumulator, or the eighth data bit of a Synchronized channel has just come: no
partial byte is ever emitted, and the delimiters, `NOISE` and `END` emit nothing. -/
def Obligations.OnlyWholeBytesAreEmitted : Prop :=
  (∀ (c : Chip) (s t : State), exec (if c then .decChip1 else .decChip0) s = .next t →
    t.dec.out ≠ s.dec.out →
      ∃ v sep, t.dec.out = s.dec.out ++ [⟨v, sep⟩] ∧
        (t.dec.ch s.dec.sel).acc = 0x00 ∧ (t.dec.ch s.dec.sel).cnt = 0 ∧
        ((v = 0x7E ∧ (t.dec.ch s.dec.sel).win = 0x7E ∧ (t.dec.ch s.dec.sel).sync = true) ∨
         ((s.dec.ch s.dec.sel).sync = true ∧ (s.dec.ch s.dec.sel).cnt = 7))) ∧
  (∀ (x : Byte) (op : Instr) (s : State), op ∈ [Instr.decDelimBar, .decDelimNl, .decNoise x, .decEnd x] →
    ∃ t, exec op s = .next t ∧ t.dec.out = s.dec.out)

/-- R105: a delimiter resets every decoder register but `emittedAny`, emits nothing and touches nothing
else; the decoder does not tell the two delimiters apart. -/
def Obligations.DecoderDelimiterResetsTheFrame : Prop :=
  decode (.dec 0x07C) = .decDelimBar ∧ decode (.dec 0x00A) = .decDelimNl ∧
  ∀ (op : Instr) (s : State), op ∈ [Instr.decDelimBar, .decDelimNl] →
    exec op s = .next { s with
      dec := { prev := none, sel := .a, chA := clearedChannel, chB := clearedChannel,
               emittedAny := s.dec.emittedAny, frameOut := false, out := s.dec.out } }

/-- R112, R83: noise changes nothing, in either unit; a step on a noise word only takes the word. -/
def Obligations.NoiseHasNoEffect : Prop :=
  (∀ (c : Byte) (s : State), exec (.decNoise c) s = .next s ∧ exec (.encNoise c) s = .next s) ∧
  (∀ (c : Byte) (s : State) (rest : List Event), c ≠ 0x30 → c ≠ 0x31 → c ≠ 0x7C → c ≠ 0x0A →
    (s.input = .word (.dec (0#1 ++ c)) :: rest → step s = .next { s with input := rest }) ∧
    (s.input = .word (.enc (0#1 ++ c)) :: rest → step s = .next { s with input := rest }))

/-- Noise can be left out of a telegram (derived from R83, R112, R48, D34): the words of one unit with every `NOISE` word
dropped leave both units as all the words do. -/
def Obligations.NoiseWordsCanBeDropped : Prop :=
  ∀ (ws : List InWord) (s : State),
    (∃ t, run (ws.map fun w => .word (.dec w)) s = .next t ∧
      run ((ws.filter fun w => !isNoiseWord w).map fun w => .word (.dec w)) s = .next t) ∧
    (∃ t, run (ws.map fun w => .word (.enc w)) s = .next t ∧
      run ((ws.filter fun w => !isNoiseWord w).map fun w => .word (.enc w)) s = .next t)

/-- R106: `DEC.END` leaves every decoder register at its reset value, whatever its ignored bits hold, emits
nothing and touches nothing else. -/
def Obligations.DecoderEndResetsTheTelegram : Prop :=
  ∀ (c : Byte) (s : State),
    decode (.dec (1#1 ++ c)) = .decEnd c ∧
    exec (.decEnd c) s = .next { s with
      dec := { prev := none, sel := .a, chA := clearedChannel, chB := clearedChannel,
               emittedAny := false, frameOut := false, out := s.dec.out } }

/-- R25 (derived: the spec's own inference): no operation makes both channels Synchronized. -/
def Obligations.AtMostOneChannelIsSynchronized : Prop :=
  ∀ (op : Instr) (s t : State), s.dec.SingleActive → exec op s = .next t → t.dec.SingleActive

/-- R116 (derived: the spec's own inference): an illegal chip pair changes nothing of the channel it is not given to,
so it cannot desynchronize it. -/
def Obligations.IllegalPairDoesNotTouchTheOtherChannel : Prop :=
  ∀ (c : Chip) (s : State), s.dec.prev = some c →
    ∃ t, exec (if c then .decChip1 else .decChip0) s = .next t ∧
      t.dec.ch s.dec.sel = clearedChannel ∧
      t.dec.ch s.dec.sel.other = s.dec.ch s.dec.sel.other ∧ t.dec.out = s.dec.out

/-- R33's last sentence (derived: the spec's own inference): `acc` and `cnt` of a channel that is not synchronized
cannot be observed. Two decoders that differ there only emit the same tokens on every list of decoder words. -/
def Obligations.SearchingAccumulatorIsUnobservable : Prop :=
  ∀ (ws : List InWord) (i : Chan) (acc : BitVec 8) (cnt : BitVec 3) (s : State), (s.dec.ch i).sync = false →
    ∃ t t', run (ws.map fun w => .word (.dec w)) s = .next t ∧
      run (ws.map fun w => .word (.dec w))
        { s with dec := s.dec.setCh i { s.dec.ch i with acc := acc, cnt := cnt } } = .next t' ∧
      t.dec.out = t'.dec.out

/-- R99 (derived: the spec's own inference): from the start of any frame, on the symbols of any bits, in either phase,
the channel of the wrong phase never finds the sync word: it is Searching after them, and the tokens are those that the
channel of the true phase alone would give. -/
def Obligations.WrongPhaseChannelNeverLocks : Prop :=
  ∀ (bs : List Bit) (s : State), s.dec.FrameStart →
    (∃ t u, run ((manchester bs).map decDigit) s = .next t ∧ run (bs.map (symOf .b)) s = .next u ∧
      t.dec.out = u.dec.out ∧ t.dec.chA.sync = false) ∧
    (∀ x : Chip, ∃ t u, run ((x :: manchester bs).map decDigit) s = .next t ∧
      run (bs.map (symOf .a)) s = .next u ∧ t.dec.out = u.dec.out ∧ t.dec.chB.sync = false)

/-- R115 (derived: the spec's own inference): from the start of any frame, one extra chip in front of the symbols of any
bits gives the same output tokens. -/
def Obligations.PhaseIndependence : Prop :=
  ∀ (bs : List Bit) (x : Chip) (s : State), s.dec.FrameStart →
    ∃ t u, run ((manchester bs).map decDigit) s = .next t ∧
      run ((x :: manchester bs).map decDigit) s = .next u ∧ t.dec.out = u.dec.out

/-! ### Encoder unit -/

/-- A bit character (derived from R67, R79, R80) enters the group's buffer at bit 0; when it is not the eighth,
nothing is sent and nothing else changes. -/
def Obligations.BitCharacterJoinsTheGroup : Prop :=
  ∀ s : State, s.enc.ecnt ≠ 7 →
    exec .encBit0 s = .next { s with
      enc := { s.enc with eacc := s.enc.eacc <<< 1, ecnt := s.enc.ecnt + 1 } } ∧
    exec .encBit1 s = .next { s with
      enc := { s.enc with eacc := (s.enc.eacc <<< 1) ||| 1, ecnt := s.enc.ecnt + 1 } }

/-- The eighth bit character sends the whole group (derived from R54, R67 to R73): the bits leave lowest-order first,
stuffed as on counters that never saturate; the group is empty afterwards, `ones` and `sbits` hold the saturated
counts, and nothing but the encoder unit changes. -/
def Obligations.EighthBitCharacterSendsTheGroup : Prop :=
  ∀ (t : Bit) (s : State), s.enc.ecnt = 7 →
    let ws : List Bit := t :: bufferBits 7 s.enc.eacc
    let n := s.enc.ones.toNat
    let k := s.enc.sbits.toNat
    ∃ e : Enc, exec (if t then .encBit1 else .encBit0) s = .next { s with enc := e } ∧
      e.out = s.enc.out ++ (wideChips s.cfg.stuffTrigger ws n k).map .chip ∧
      e.eacc = 0x00 ∧ e.ecnt = 0 ∧
      e.ones.toNat = min (wideOnes s.cfg.stuffTrigger ws n k) 7 ∧ e.sbits = 8

/-- R69, R71: one logical bit through the bit-stuffer. Its symbol leaves; a one adds 1 to `ones`, saturating at 7, and
a zero sets it to 0; `sbits` counts the bit, saturating at 8; and exactly when the bit is a one, 8 logical bits were
sent before it and the trigger holds of the new count, a stuffed `01` follows and `ones` is 0. -/
def Obligations.BitStufferSendsOneBit : Prop :=
  ∀ (p : StuffTrigger) (w : Bit) (e : Enc),
    let count := if w then min (e.ones.toNat + 1) 7 else 0
    let due := w = true ∧ 8 ≤ e.sbits.toNat ∧ (match p with | .eq => count = 5 | .ge => 5 ≤ count)
    (encodeBit p w e).eacc = e.eacc ∧ (encodeBit p w e).ecnt = e.ecnt ∧
    (encodeBit p w e).sbits.toNat = min (e.sbits.toNat + 1) 8 ∧
    (due → (encodeBit p w e).ones = 0 ∧
      (encodeBit p w e).out = e.out ++ [.chip w, .chip (!w), .chip false, .chip true]) ∧
    (¬ due → (encodeBit p w e).ones.toNat = count ∧
      (encodeBit p w e).out = e.out ++ [.chip w, .chip (!w)])

/-- R81, R82: a delimiter first sends the partial group, if there is one, then its own token, and leaves every encoder
register at its reset value; an empty frame emits only the delimiter. Nothing else changes. -/
def Obligations.EncoderDelimiterFlushesThenEndsTheFrame : Prop :=
  ∀ (k : DelimKind) (s : State),
    let op : Instr := match k with | .bar => .encDelimBar | .nl => .encDelimNl
    let chips : List Chip := wideChips s.cfg.stuffTrigger (bufferBits s.enc.ecnt.toNat s.enc.eacc)
      s.enc.ones.toNat s.enc.sbits.toNat
    decode (.enc (match k with | .bar => 0x07C | .nl => 0x00A)) = op ∧
    exec op s = .next { s with
      enc := ⟨0x00, 0, 0, 0, s.enc.out ++ chips.map EncToken.chip ++ [EncToken.delim k]⟩ }

/-- R84: `ENC.END` sends the partial group, emits no delimiter, and leaves every encoder register at its reset value,
whatever its ignored bits hold. -/
def Obligations.EncoderEndFlushesTheTelegram : Prop :=
  ∀ (c : Byte) (s : State),
    let chips : List Chip := wideChips s.cfg.stuffTrigger (bufferBits s.enc.ecnt.toNat s.enc.eacc)
      s.enc.ones.toNat s.enc.sbits.toNat
    decode (.enc (1#1 ++ c)) = .encEnd c ∧
    exec (.encEnd c) s = .next { s with enc := ⟨0x00, 0, 0, 0, s.enc.out ++ chips.map EncToken.chip⟩ }

/-- R75 (derived: the spec's own inference): a frame's first group of eight bits leaves as plain symbols, lowest-order
bit first, whatever its bits are, under either trigger. -/
def Obligations.FirstGroupOfAFrameIsNeverStuffed : Prop :=
  ∀ (t : Bit) (s : State), s.enc.ecnt = 7 → s.enc.sbits = 0 →
    ∃ u, exec (if t then .encBit1 else .encBit0) s = .next u ∧
      u.enc.out = s.enc.out ++
        (manchester (t :: bufferBits 7 s.enc.eacc)).map .chip

/-- R76, and R77's first case (derived: the spec's own inferences): ones sent at or after bit 8 of a frame, with a
one-count of at most 4 before them, get a stuffed zero after each one that makes the run's count a multiple of 5 and
nowhere else, under either trigger. With a count of 0 a run of `m` ones gets exactly `m / 5` of them; a run that began
inside the first 8 bits is stuffed first at the fifth one of the whole run. -/
def Obligations.RunAfterBitEightIsStuffedAtEachFifthOne : Prop :=
  ∀ (p : StuffTrigger) (m : Nat) (e : Enc), e.ones.toNat ≤ 4 → 8 ≤ e.sbits.toNat →
    (encodeBits p (List.replicate m true) e).out = e.out ++
      (List.range m).flatMap (fun j => oneTokens ((e.ones.toNat + j + 1) % 5 = 0)) ∧
    (encodeBits p (List.replicate m true) e).ones.toNat = (e.ones.toNat + m) % 5 ∧
    (e.ones = 0 → (encodeBits p (List.replicate m true) e).out.length = e.out.length + 2 * (m + m / 5))

/-- R77's second case (derived: the spec's own inference): a run whose count is already 5 or more when bit 8 is sent is never stuffed
under `EQ`; under `GE` it is stuffed right after its first one at or beyond bit 8, and then after each fifth. -/
def Obligations.RunCrossingBitEightDependsOnTheTrigger : Prop :=
  ∀ (m : Nat) (e : Enc), 5 ≤ e.ones.toNat → 8 ≤ e.sbits.toNat →
    (encodeBits .eq (List.replicate m true) e).out = e.out ++
      (List.replicate m (oneTokens false)).flatten ∧
    (encodeBits .ge (List.replicate m true) e).out = e.out ++
      (List.range m).flatMap (fun j => oneTokens (j % 5 = 0))

/-- R78 (derived: the spec's own inference): one step of `ENC` emits at most 20 chips, then at most one delimiter, from
every state and under either trigger. -/
def Obligations.EncoderStepEmitsAtMostTwentyChips : Prop :=
  ∀ (op : Instr) (s : State), op.port = .enc →
    ∃ t, ∃ cs : List Chip, ∃ ds : List DelimKind, exec op s = .next t ∧
      t.enc.out = s.enc.out ++ cs.map .chip ++ ds.map .delim ∧ cs.length ≤ 20 ∧ ds.length ≤ 1

/-- The frame of the encoder unit's operations (derived from R6, R79 to R84): they complete in every state; the decoder
unit, the parameters and the offered input are as before, and what the unit had emitted stays. -/
def Obligations.EncoderOperationsFrame : Prop :=
  ∀ (op : Instr) (s : State), op.port = .enc ∨ op.port = .codec →
    ∃ t, exec op s = .next t ∧ t.dec = s.dec ∧ t.cfg = s.cfg ∧ t.input = s.input ∧ s.enc.out <+: t.enc.out

/-- The encoder against its plain reference, for one frame of any length (derived from R39, R67 to R74, R81, R82, R84 and,
on saturation, R30 and R31): from every state whose encoder registers are at their reset values, under either trigger,
the text goes to wire order in groups of 8, each reversed, and leaves stuffed as on counters that never saturate; then
the delimiter's token leaves, or none at `END`; the encoder registers end at their reset values, and the decoder unit
and the parameters are as before. -/
def Obligations.EncodedFrameIsTheReference : Prop :=
  ∀ (text : List Bit) (ending : Option DelimKind) (s : State), s.enc.FrameStart →
    ∃ t, run (text.map encDigit ++ [encFrameEnd ending]) s = .next t ∧
      t.enc = { Enc.reset with
        out := s.enc.out ++ (wideChips s.cfg.stuffTrigger (wireOrder [] text) 0 0).map .chip ++
          ending.toList.map .delim } ∧
      t.dec = s.dec ∧ t.cfg = s.cfg

/-! ### Both units -/

/-- R117 (derived: the spec's own inference, on decision D31): the round trip. A frame of bytes that begins with the sync
byte, followed by fewer than 8 further bit characters, ended by `END` or by a delimiter, encoded under either trigger
from the start of any frame, leaves as chips; decoded with or without one extra chip in front from the start of any
frame, they give back exactly its bytes, with a separator on the first one just when an earlier frame of the decoder's
telegram has emitted (R104), so with none in the telegram's first frame. -/
def Obligations.RoundTrip : Prop :=
  ∀ (bytes : List Byte) (tail : List Bit) (ending : Option DelimKind) (extra : Option Chip) (s r : State),
    tail.length < 8 → s.enc.FrameStart → r.dec.FrameStart →
      ∃ (e : State) (chips : List Chip) (d : State),
        run (((0x7E :: bytes).flatMap byteText ++ tail).map encDigit ++ [encFrameEnd ending]) s = .next e ∧
        e.enc.out = s.enc.out ++ chips.map .chip ++ ending.toList.map .delim ∧
        run ((extra.toList ++ chips).map decDigit) r = .next d ∧
        d.dec.out = r.dec.out ++ ⟨0x7E, r.dec.emittedAny⟩ :: bytes.map fun v => ⟨v, false⟩

/-- The two units share no state and never exchange data (derived from R6, R43). An operation of one leaves the other
as it was, and two operations of different units give the same state in either order. -/
def Obligations.UnitsAreIndependent : Prop :=
  ∀ (d e : Instr) (s : State), (d.port = .dec ∨ ∃ i, d.port = .sym i) → (e.port = .enc ∨ e.port = .codec) →
    ∃ s1 s2 t, exec d s = .next s1 ∧ exec e s = .next s2 ∧ s1.enc = s.enc ∧ s2.dec = s.dec ∧
      exec e s1 = .next t ∧ exec d s2 = .next t

/-- R53: the output token formats. -/
def Obligations.OutputTokenFormats : Prop :=
  (EncToken.chip false).outKind = 0b00 ∧ (EncToken.chip true).outKind = 0b01 ∧
  (EncToken.delim .bar).outKind = 0b10 ∧ (EncToken.delim .nl).outKind = 0b11 ∧
  ∀ t : DecToken, t.outWord.getLsbD 8 = t.sep ∧ t.outWord.setWidth 8 = t.byte

/-- R39, R57 (derived; the host's text is outside the step): a byte that goes in as the text of eight digits is rendered
as the same eight characters, after a newline exactly when its separator bit is set. -/
def Obligations.ByteTextRoundTrip : Prop :=
  ∀ (bs : List Bit) (sep : Bool), bs.length = 8 →
    textOfDec [⟨bs.foldl (fun v t => appendGroupBit t v) 0x00, sep⟩] =
      (if sep then ['\n'] else []) ++ bs.map charOfBit

/-! ### The machine -/

/-- The reset input (derived from R131; that a step takes it from the offered input, and that the emitted tokens stay, is
the model's choice, log entries 1 and 6) sets every register of both units to its reset value, from every state, and
flushes nothing. -/
def Obligations.ResetInputFromAnyState : Prop :=
  ∀ (s : State) (rest : List Event), s.input = .rst :: rest →
    step s = .next
      { cfg := s.cfg
        dec := { prev := none, sel := .a, chA := clearedChannel, chB := clearedChannel,
                 emittedAny := false, frameOut := false, out := s.dec.out }
        enc := { eacc := 0x00, ecnt := 0, ones := 0, sbits := 0, out := s.enc.out }
        input := rest }

/-- The reset value of every register, and the two reset classes (derived from R34). A delimiter resets the frame registers of its
unit and keeps `emittedAny`, the one telegram register; `END` and the reset input reset all; no other operation clears
`emittedAny`; the encoder unit's registers are all frame registers. (That the output
sequences stay is the model's choice, log entry 2, and so is that a step takes the reset input from the offered input,
log entries 1 and 6.) -/
def Obligations.ResetValuesAndClasses : Prop :=
  (State.reset.dec.prev = none ∧ State.reset.dec.sel = .a ∧
    (∀ i, State.reset.dec.ch i = { win := 0x00, run := 0, acc := 0x00, cnt := 0, sync := false }) ∧
    State.reset.dec.emittedAny = false ∧ State.reset.dec.frameOut = false ∧
    State.reset.enc.eacc = 0x00 ∧ State.reset.enc.ecnt = 0 ∧ State.reset.enc.ones = 0 ∧ State.reset.enc.sbits = 0) ∧
  ∀ (c : Byte) (s : State),
    (∀ op ∈ [Instr.decDelimBar, .decDelimNl], ∃ t, exec op s = .next t ∧
      t.dec = { State.reset.dec with emittedAny := s.dec.emittedAny, out := s.dec.out }) ∧
    (∃ t, exec (.decEnd c) s = .next t ∧ t.dec = { State.reset.dec with out := s.dec.out }) ∧
    (∀ op ∈ [Instr.encDelimBar, .encDelimNl, .encEnd c], ∃ t, exec op s = .next t ∧
      t.enc = { State.reset.enc with out := t.enc.out }) ∧
    (∃ t, step { s with input := [.rst] } = .next t ∧
      t.dec = { State.reset.dec with out := s.dec.out } ∧ t.enc = { State.reset.enc with out := s.enc.out }) ∧
    (∀ (op : Instr) (t : State), (∀ x, op ≠ .decEnd x) → exec op s = .next t → s.dec.emittedAny = true →
      t.dec.emittedAny = true)

/-- A step runs the decoded operation (derived from R9, R14, R42): when a word is offered, the step takes that one event
and is `exec` of the word's operation; the next word is then the next one offered. -/
def Obligations.StepRunsTheDecodedOperation : Prop :=
  ∀ (s : State) (o : Offer) (rest : List Event), s.input = .word o :: rest →
    step s = exec (decode o) { s with input := rest }

/-- With no word offered, the units wait and keep all their state (derived from R36, R129; log entry 7). -/
def Obligations.WaitingKeepsAllState : Prop :=
  ∀ s : State, s.input = [] → step s = .next s

/-- No step stops the machine (derived from R14, R55, R121, R122, R129, R131): from every state there is a next state. A
step takes exactly one offered entry where there is one, and with nothing offered it takes none; the parameters are as
before. (The offered input as a list, the reset input as an entry of it, the wait and the parameters as a field are the
model's choices, log entries 1, 6, 7 and 5.) -/
def Obligations.EveryStepAnswersANextState : Prop :=
  ∀ s : State, ∃ t, step s = .next t ∧ t.input = s.input.tail ∧ t.cfg = s.cfg

/-- The invariant holds after reset (derived from R34). -/
def Obligations.InvariantHoldsAfterReset : Prop := State.reset.Inv

/-- Every step keeps the invariant (derived from R20, R21, R25, R28, R31, R89, R91, R92, R104): the one-run is at most 6
and is what the window's top bits show, the accumulators hold nothing above their counts and nothing while Searching, at
most one channel is Synchronized and only in a frame that has emitted, and the encoder's counts fit its group. -/
def Obligations.EveryStepKeepsTheInvariant : Prop :=
  ∀ s t : State, s.Inv → step s = .next t → t.Inv
end

