-- ==== Sys2Proof/Laws/Decode.lean ====
section
/-! SUPPORT. The parts of an input word, the class of a word, and the numbers and bytes of a word. -/

namespace Sys2Proof

@[simp] theorem inWord_endBit (b : Bool) (c : Byte) : InWord.endBit (inWord b c) = b := by
  revert b c; decide

@[simp] theorem inWord_char (b : Bool) (c : Byte) : InWord.char (inWord b c) = c := by
  revert b c; decide

/-- An input word is its two fields. -/
theorem inWord_of_fields (w : InWord) : inWord (InWord.endBit w) (InWord.char w) = w := by
  revert w; decide

@[simp] theorem classOf_end (c : Byte) : classOf (inWord true c) = .endToken c := by simp [classOf]

theorem classOf_char (c : Byte) : classOf (inWord false c) =
    if c = Config.charZero then .bit0
    else if c = Config.charOne then .bit1
    else if c = Config.charBar then .delimBar
    else if c = Config.charLineFeed then .delimNl
    else .noise c := by simp [classOf]

/-- A word of class `NOISE` is one whose character is a noise character. -/
theorem classOf_noise {c : Byte} (h : isNoiseChar c = true) : classOf (inWord false c) = .noise c := by
  simp only [isNoiseChar, Bool.and_eq_true, bne_iff_ne, ne_eq] at h
  obtain ⟨⟨⟨h0, h1⟩, h2⟩, h3⟩ := h
  simp [classOf_char, h0, h1, h2, h3]

/-- The word a class stands for: the class loses nothing of the word. -/
def CharClass.word : CharClass → InWord
  | .bit0 => inWord false Config.charZero
  | .bit1 => inWord false Config.charOne
  | .delimBar => inWord false Config.charBar
  | .delimNl => inWord false Config.charLineFeed
  | .noise c => inWord false c
  | .endToken c => inWord true c

theorem word_classOf (w : InWord) : (classOf w).word = w := by
  revert w; decide

theorem classOf_noise_isNoise {w : InWord} {c : Byte} (h : classOf w = .noise c) : isNoiseChar c = true := by
  have hw := word_classOf w
  rw [h] at hw
  rw [← hw] at h
  simp only [CharClass.word, classOf_char] at h
  simp only [isNoiseChar, Bool.and_eq_true, bne_iff_ne, ne_eq]
  split_ifs at h with h0 h1 h2 h3
  exact ⟨⟨⟨h0, h1⟩, h2⟩, h3⟩

/-! ### Numbers and bytes -/

theorem Offer.number_lt (o : Offer) : o.number < 512 := by
  cases o with
  | dec w => exact w.isLt
  | enc w => exact w.isLt
  | codec b => exact Nat.lt_of_lt_of_le b.isLt (by decide)
  | sym i v => exact Nat.lt_of_lt_of_le v.isLt (by decide)

/-- The port of a word. -/
def Offer.port : Offer → Port
  | .dec _ => .dec
  | .enc _ => .enc
  | .codec _ => .codec
  | .sym i _ => .sym i

theorem offerOf_number (o : Offer) : offerOf o.port o.number = .ok o := by
  cases o with
  | dec w => simp [offerOf, Offer.port, Offer.number, Port.width]; exact w.isLt
  | enc w => simp [offerOf, Offer.port, Offer.number, Port.width]; exact w.isLt
  | codec b => simp [offerOf, Offer.port, Offer.number, Port.width]; have := b.isLt; omega
  | sym i v => simp [offerOf, Offer.port, Offer.number, Port.width]; exact v.isLt

@[simp] theorem bytesOfNumber_length (k n : Nat) : (bytesOfNumber k n).length = k := by
  induction k generalizing n with
  | zero => rfl
  | succ k ih => simp [bytesOfNumber, ih]

theorem numberOfBytes_bytesOfNumber (k n : Nat) : numberOfBytes (bytesOfNumber k n) = n % 256 ^ k := by
  induction k generalizing n with
  | zero => simp [bytesOfNumber, numberOfBytes, Nat.mod_one]
  | succ k ih =>
    rw [pow_succ' 256 k, Nat.mod_mul]
    simp only [bytesOfNumber, numberOfBytes, ih, BitVec.toNat_ofNat]

@[simp] theorem encode_port (i : Instr) : (encode i).port = i.port := by cases i <;> rfl

end Sys2Proof
end

