-- ==== Sys2Proof/Laws/State.lean ====
section
/-! SUPPORT. One lemma per field per update of the units: the channel file, the emissions and the resets. -/

namespace Sys2Proof

@[simp] theorem Chan.other_other (i : Chan) : i.other.other = i := by cases i <;> rfl

theorem Chan.other_ne (i : Chan) : i.other ≠ i := by cases i <;> decide

theorem Chan.eq_or_eq_other (i j : Chan) : j = i ∨ j = i.other := by cases i <;> cases j <;> decide

namespace Machine

/-! ### The channel file -/

@[simp] theorem Dec.ch_a (d : Dec) : d.ch .a = d.chA := rfl
@[simp] theorem Dec.ch_b (d : Dec) : d.ch .b = d.chB := rfl

@[simp] theorem Dec.ch_setCh_self (d : Dec) (i : Chan) (c : Channel) : (d.setCh i c).ch i = c := by
  cases i <;> rfl

@[simp] theorem Dec.ch_other_setCh (d : Dec) (i : Chan) (c : Channel) :
    (d.setCh i c).ch i.other = d.ch i.other := by cases i <;> rfl

@[simp] theorem Dec.ch_setCh_other (d : Dec) (i : Chan) (c : Channel) :
    (d.setCh i.other c).ch i = d.ch i := by cases i <;> rfl

@[simp] theorem Dec.setCh_setCh_self (d : Dec) (i : Chan) (c c' : Channel) :
    (d.setCh i c).setCh i c' = d.setCh i c' := by cases i <;> rfl

theorem Dec.setCh_other_comm (d : Dec) (i : Chan) (c c' : Channel) :
    (d.setCh i.other c).setCh i c' = (d.setCh i c').setCh i.other c := by cases i <;> rfl

@[simp] theorem Dec.setCh_ch_self (d : Dec) (i : Chan) : d.setCh i (d.ch i) = d := by cases i <;> rfl

@[simp] theorem Dec.prev_setCh (d : Dec) (i : Chan) (c : Channel) : (d.setCh i c).prev = d.prev := by
  cases i <;> rfl
@[simp] theorem Dec.sel_setCh (d : Dec) (i : Chan) (c : Channel) : (d.setCh i c).sel = d.sel := by
  cases i <;> rfl
@[simp] theorem Dec.emittedAny_setCh (d : Dec) (i : Chan) (c : Channel) :
    (d.setCh i c).emittedAny = d.emittedAny := by cases i <;> rfl
@[simp] theorem Dec.frameOut_setCh (d : Dec) (i : Chan) (c : Channel) :
    (d.setCh i c).frameOut = d.frameOut := by cases i <;> rfl
@[simp] theorem Dec.out_setCh (d : Dec) (i : Chan) (c : Channel) : (d.setCh i c).out = d.out := by
  cases i <;> rfl

@[simp] theorem separatorDue_setCh (d : Dec) (i : Chan) (c : Channel) :
    separatorDue (d.setCh i c) = separatorDue d := by cases i <;> rfl

/-! ### Emission of a byte -/

@[simp] theorem emitByte_ch (v : Byte) (d : Dec) (i : Chan) : (emitByte v d).ch i = d.ch i := by
  cases i <;> rfl
@[simp] theorem emitByte_chA (v : Byte) (d : Dec) : (emitByte v d).chA = d.chA := rfl
@[simp] theorem emitByte_chB (v : Byte) (d : Dec) : (emitByte v d).chB = d.chB := rfl
@[simp] theorem emitByte_prev (v : Byte) (d : Dec) : (emitByte v d).prev = d.prev := rfl
@[simp] theorem emitByte_sel (v : Byte) (d : Dec) : (emitByte v d).sel = d.sel := rfl
@[simp] theorem emitByte_emittedAny (v : Byte) (d : Dec) : (emitByte v d).emittedAny = true := rfl
@[simp] theorem emitByte_frameOut (v : Byte) (d : Dec) : (emitByte v d).frameOut = true := rfl
@[simp] theorem emitByte_out (v : Byte) (d : Dec) :
    (emitByte v d).out = d.out ++ [⟨v, d.emittedAny && !d.frameOut⟩] := rfl

theorem emitByte_setCh (v : Byte) (d : Dec) (i : Chan) (c : Channel) :
    (emitByte v d).setCh i c = emitByte v (d.setCh i c) := by cases i <;> rfl

/-! ### Resets of the decoder unit -/

@[simp] theorem frameResetDec_prev (d : Dec) : (frameResetDec d).prev = none := rfl
@[simp] theorem frameResetDec_sel (d : Dec) : (frameResetDec d).sel = .a := rfl
@[simp] theorem frameResetDec_chA (d : Dec) : (frameResetDec d).chA = Channel.reset := rfl
@[simp] theorem frameResetDec_chB (d : Dec) : (frameResetDec d).chB = Channel.reset := rfl
@[simp] theorem frameResetDec_emittedAny (d : Dec) : (frameResetDec d).emittedAny = d.emittedAny := rfl
@[simp] theorem frameResetDec_frameOut (d : Dec) : (frameResetDec d).frameOut = false := rfl
@[simp] theorem frameResetDec_out (d : Dec) : (frameResetDec d).out = d.out := rfl

/-- After `END` the decoder unit is the reset one, with the tokens it has emitted. -/
theorem telegramResetDec_eq_reset (d : Dec) : telegramResetDec d = { Dec.reset with out := d.out } := rfl

/-! ### The encoder unit -/

@[simp] theorem Enc.emitAll_eacc (ts : List EncToken) (e : Enc) : (e.emitAll ts).eacc = e.eacc := rfl
@[simp] theorem Enc.emitAll_ecnt (ts : List EncToken) (e : Enc) : (e.emitAll ts).ecnt = e.ecnt := rfl
@[simp] theorem Enc.emitAll_ones (ts : List EncToken) (e : Enc) : (e.emitAll ts).ones = e.ones := rfl
@[simp] theorem Enc.emitAll_sbits (ts : List EncToken) (e : Enc) : (e.emitAll ts).sbits = e.sbits := rfl
@[simp] theorem Enc.emitAll_out (ts : List EncToken) (e : Enc) : (e.emitAll ts).out = e.out ++ ts := rfl

@[simp] theorem symEncode_eacc (b : Bit) (e : Enc) : (symEncode b e).eacc = e.eacc := rfl
@[simp] theorem symEncode_ecnt (b : Bit) (e : Enc) : (symEncode b e).ecnt = e.ecnt := rfl
@[simp] theorem symEncode_ones (b : Bit) (e : Enc) : (symEncode b e).ones = e.ones := rfl
@[simp] theorem symEncode_sbits (b : Bit) (e : Enc) : (symEncode b e).sbits = e.sbits := rfl
@[simp] theorem symEncode_out (b : Bit) (e : Enc) : (symEncode b e).out = e.out ++ [.chip b, .chip (!b)] := by
  cases b <;> rfl

@[simp] theorem frameResetEnc_out (e : Enc) : (frameResetEnc e).out = e.out := rfl

/-- After the frame reset the encoder unit is the reset one, with the tokens it has emitted. -/
theorem frameResetEnc_eq_reset (e : Enc) : frameResetEnc e = { Enc.reset with out := e.out } := rfl

end Machine

end Sys2Proof
end

