-- ==== Sys2Proof/Laws/Ops.lean ====
section
/-! SUPPORT. What each shared operation can do, said once. -/

namespace Sys2Proof.Machine

/-! ### Taking an error -/

/-- Both errors leave the channel at its reset values and change nothing else. -/
@[simp] theorem raiseError_eq (cause : ErrorCause) (i : Chan) (d : Dec) :
    raiseError cause i d = d.setCh i Channel.reset := by cases cause <;> rfl

/-! ### A decoded bit in a channel -/

section ChannelBit

variable {i : Chan} {b : Bit} {d : Dec}

/-- The channel's window and run after a legal bit. -/
def Channel.shifted (b : Bit) (c : Channel) : Channel :=
  { c with run := nextRun b c.run, win := shiftWindow b c.win }

@[simp] theorem Channel.shifted_eq (b : Bit) (c : Channel) :
    c.shifted b = { c with run := nextRun b c.run, win := shiftWindow b c.win } := rfl

/-- A one never completes the sync word, whose bit 7 is 0. -/
@[simp] theorem isSyncWord_shift_one (win : BitVec 8) : isSyncWord (shiftWindow true win) = false := by
  revert win; decide

theorem isSyncWord_iff (win : BitVec 8) : isSyncWord win = true ↔ win = 0x7E := by revert win; decide

theorem isSyncWord_eq_false_iff (win : BitVec 8) : isSyncWord win = false ↔ win ≠ 0x7E := by
  revert win; decide

@[simp] theorem isIllegalRun_zero (run : BitVec 3) : isIllegalRun false run = false := rfl

@[simp] theorem isStuffed_one (run : BitVec 3) : isStuffed true run = false := rfl

theorem isIllegalRun_iff (b : Bit) (run : BitVec 3) :
    isIllegalRun b run = true ↔ b = true ∧ run = 6 := by revert b run; decide

theorem isStuffed_iff (b : Bit) (run : BitVec 3) :
    isStuffed b run = true ↔ b = false ∧ run = 5 := by revert b run; decide

theorem channelBit_illegalRun (h : isIllegalRun b (d.ch i).run = true) :
    channelBit i b d = d.setCh i Channel.reset := by
  simp [channelBit, h]

theorem channelBit_match (h : isIllegalRun b (d.ch i).run = false)
    (hm : isSyncWord (shiftWindow b (d.ch i).win) = true) :
    channelBit i b d =
      emitByte Config.syncWord
        ((d.setCh i.other { d.ch i.other with sync := false, acc := 0x00, cnt := 0 }).setCh i
          { (d.ch i).shifted b with sync := true, acc := 0x00, cnt := 0 }) := by
  simp only [Channel.shifted_eq, channelBit, h, hm, syncMatch, Bool.false_eq_true, if_false, if_true, Dec.ch_other_setCh,
    Dec.ch_setCh_other, Dec.ch_setCh_self, Dec.setCh_other_comm, Dec.setCh_setCh_self]

theorem channelBit_quiet (h : isIllegalRun b (d.ch i).run = false)
    (hm : isSyncWord (shiftWindow b (d.ch i).win) = false)
    (hs : ((d.ch i).sync && !isStuffed b (d.ch i).run) = false) :
    channelBit i b d = d.setCh i ((d.ch i).shifted b) := by
  simp only [Channel.shifted_eq, channelBit, h, hm, hs, Bool.false_eq_true, if_false]

theorem channelBit_append (h : isIllegalRun b (d.ch i).run = false)
    (hm : isSyncWord (shiftWindow b (d.ch i).win) = false)
    (hs : ((d.ch i).sync && !isStuffed b (d.ch i).run) = true) (hc : (d.ch i).cnt.toNat ≠ 7) :
    channelBit i b d = d.setCh i { (d.ch i).shifted b with
      acc := insertDataBit b (d.ch i).cnt (d.ch i).acc, cnt := (d.ch i).cnt + 1 } := by
  have : ¬ (d.ch i).cnt.toNat + 1 = Config.byteWidth := by simp only [Config.byteWidth]; omega
  simp only [Channel.shifted_eq, channelBit, h, hm, hs, Bool.false_eq_true, if_false, if_true, appendData, Dec.ch_setCh_self,
    this, Dec.setCh_setCh_self]

theorem channelBit_append_full (h : isIllegalRun b (d.ch i).run = false)
    (hm : isSyncWord (shiftWindow b (d.ch i).win) = false)
    (hs : ((d.ch i).sync && !isStuffed b (d.ch i).run) = true) (hc : (d.ch i).cnt.toNat = 7) :
    channelBit i b d = emitByte (insertDataBit b (d.ch i).cnt (d.ch i).acc)
      (d.setCh i { (d.ch i).shifted b with acc := 0x00, cnt := 0 }) := by
  have : (d.ch i).cnt.toNat + 1 = Config.byteWidth := by rw [hc]; rfl
  simp only [Channel.shifted_eq, channelBit, h, hm, hs, Bool.false_eq_true, if_false, if_true, appendData, Dec.ch_setCh_self,
    this, Dec.setCh_setCh_self, emitByte_setCh]

/-- What a decoded bit can do to the decoder unit: an IllegalRun, a sync match, no append, an append, or the eighth data
bit. -/
theorem channelBit_cases (i : Chan) (b : Bit) (d : Dec) :
    (isIllegalRun b (d.ch i).run = true ∧ channelBit i b d = d.setCh i Channel.reset) ∨
    (isIllegalRun b (d.ch i).run = false ∧ isSyncWord (shiftWindow b (d.ch i).win) = true ∧
      channelBit i b d = emitByte Config.syncWord
        ((d.setCh i.other { d.ch i.other with sync := false, acc := 0x00, cnt := 0 }).setCh i
          { (d.ch i).shifted b with sync := true, acc := 0x00, cnt := 0 })) ∨
    (isIllegalRun b (d.ch i).run = false ∧ isSyncWord (shiftWindow b (d.ch i).win) = false ∧
      ((d.ch i).sync && !isStuffed b (d.ch i).run) = false ∧
      channelBit i b d = d.setCh i ((d.ch i).shifted b)) ∨
    (isIllegalRun b (d.ch i).run = false ∧ isSyncWord (shiftWindow b (d.ch i).win) = false ∧
      ((d.ch i).sync && !isStuffed b (d.ch i).run) = true ∧ (d.ch i).cnt.toNat ≠ 7 ∧
      channelBit i b d = d.setCh i { (d.ch i).shifted b with
        acc := insertDataBit b (d.ch i).cnt (d.ch i).acc, cnt := (d.ch i).cnt + 1 }) ∨
    (isIllegalRun b (d.ch i).run = false ∧ isSyncWord (shiftWindow b (d.ch i).win) = false ∧
      ((d.ch i).sync && !isStuffed b (d.ch i).run) = true ∧ (d.ch i).cnt.toNat = 7 ∧
      channelBit i b d = emitByte (insertDataBit b (d.ch i).cnt (d.ch i).acc)
        (d.setCh i { (d.ch i).shifted b with acc := 0x00, cnt := 0 })) := by
  rcases hi : isIllegalRun b (d.ch i).run with _ | _
  · rcases hm : isSyncWord (shiftWindow b (d.ch i).win) with _ | _
    · rcases hs : ((d.ch i).sync && !isStuffed b (d.ch i).run) with _ | _
      · exact .inr (.inr (.inl ⟨rfl, rfl, rfl, channelBit_quiet hi hm hs⟩))
      · by_cases hc : (d.ch i).cnt.toNat = 7
        · exact .inr (.inr (.inr (.inr ⟨rfl, rfl, rfl, hc, channelBit_append_full hi hm hs hc⟩)))
        · exact .inr (.inr (.inr (.inl ⟨rfl, rfl, rfl, hc, channelBit_append hi hm hs hc⟩)))
    · exact .inr (.inl ⟨rfl, rfl, channelBit_match hi hm⟩)
  · exact .inl ⟨rfl, channelBit_illegalRun hi⟩

end ChannelBit

/-! ### A symbol in a channel -/

@[simp] theorem channelStep_zero (i : Chan) (d : Dec) : channelStep i false true d = channelBit i false d := rfl
@[simp] theorem channelStep_one (i : Chan) (d : Dec) : channelStep i true false d = channelBit i true d := rfl
@[simp] theorem channelStep_illegal (i : Chan) (c : Chip) (d : Dec) :
    channelStep i c c d = d.setCh i Channel.reset := by cases c <;> rfl

/-- A symbol is an error of the channel or a bit for it. -/
theorem channelStep_cases (i : Chan) (c1 c2 : Chip) (d : Dec) :
    (c1 = c2 ∧ channelStep i c1 c2 d = d.setCh i Channel.reset) ∨
    (c1 ≠ c2 ∧ channelStep i c1 c2 d = channelBit i c1 d) := by
  cases c1 <;> cases c2 <;> simp

/-- What a symbol leaves alone: `prev` and `sel`; the other channel, of which a match clears `sync`, `acc` and `cnt`;
the tokens and flags, or one more token with its separator bit. -/
theorem channelStep_frame (i : Chan) (c1 c2 : Chip) (d : Dec) :
    (channelStep i c1 c2 d).prev = d.prev ∧ (channelStep i c1 c2 d).sel = d.sel ∧
    (((channelStep i c1 c2 d).out = d.out ∧ (channelStep i c1 c2 d).emittedAny = d.emittedAny ∧
        (channelStep i c1 c2 d).frameOut = d.frameOut ∧ (channelStep i c1 c2 d).ch i.other = d.ch i.other) ∨
     ((∃ v, (channelStep i c1 c2 d).out = d.out ++ [⟨v, d.emittedAny && !d.frameOut⟩]) ∧
        (channelStep i c1 c2 d).emittedAny = true ∧ (channelStep i c1 c2 d).frameOut = true ∧
        ((channelStep i c1 c2 d).ch i.other = d.ch i.other ∨
          (channelStep i c1 c2 d).ch i.other = { d.ch i.other with sync := false, acc := 0x00, cnt := 0 }))) := by
  rcases channelStep_cases i c1 c2 d with ⟨-, h⟩ | ⟨-, h⟩
  · simp [h]
  · rcases channelBit_cases i c1 d with h' | h' | h' | h' | h' <;> simp [h, h']

/-! ### A chip in the decoder unit -/

theorem deliverChip_first {d : Dec} (c : Chip) (h : d.prev = none) :
    deliverChip c d = { d with prev := some c, sel := d.sel.other } := by simp [deliverChip, h]

theorem deliverChip_next {d : Dec} {p : Chip} (c : Chip) (h : d.prev = some p) :
    deliverChip c d = { channelStep d.sel p c d with prev := some c, sel := d.sel.other } := by
  simp [deliverChip, h]

@[simp] theorem deliverChip_prev (c : Chip) (d : Dec) : (deliverChip c d).prev = some c := rfl
@[simp] theorem deliverChip_sel (c : Chip) (d : Dec) : (deliverChip c d).sel = d.sel.other := rfl

/-! ### A logical bit in the encoder unit -/

/-- The one-count after the bit, as a number. -/
theorem nextOnes_toNat (w : Bit) (ones : BitVec 3) :
    (nextOnes w ones).toNat = if w then min (ones.toNat + 1) 7 else 0 := by
  cases w <;> simp [nextOnes, sat, Config.onesLimit]

/-- The frame bit count after the bit, as a number. -/
theorem nextSbits_toNat (sbits : BitVec 4) : (nextSbits sbits).toNat = min (sbits.toNat + 1) 8 := by
  simp [nextSbits, sat, Config.sbitsLimit]

theorem encodeBit_stuffed {p : StuffTrigger} {w : Bit} {e : Enc}
    (h : stuffDue p w e.sbits (nextOnes w e.ones) = true) :
    encodeBit p w e = { e with
      ones := 0, sbits := nextSbits e.sbits
      out := e.out ++ [.chip w, .chip (!w), .chip false, .chip true] } := by
  cases w <;> simp [encodeBit, h, symEncode, symChips, Enc.emitAll]

theorem encodeBit_plain {p : StuffTrigger} {w : Bit} {e : Enc}
    (h : stuffDue p w e.sbits (nextOnes w e.ones) = false) :
    encodeBit p w e = { e with
      ones := nextOnes w e.ones, sbits := nextSbits e.sbits, out := e.out ++ [.chip w, .chip (!w)] } := by
  cases w <;> simp [encodeBit, h, symEncode, symChips, Enc.emitAll]

@[simp] theorem encodeBit_eacc (p : StuffTrigger) (w : Bit) (e : Enc) : (encodeBit p w e).eacc = e.eacc := by
  cases h : stuffDue p w e.sbits (nextOnes w e.ones)
  · rw [encodeBit_plain h]
  · rw [encodeBit_stuffed h]

@[simp] theorem encodeBit_ecnt (p : StuffTrigger) (w : Bit) (e : Enc) : (encodeBit p w e).ecnt = e.ecnt := by
  cases h : stuffDue p w e.sbits (nextOnes w e.ones)
  · rw [encodeBit_plain h]
  · rw [encodeBit_stuffed h]

theorem encodeBit_sbits (p : StuffTrigger) (w : Bit) (e : Enc) :
    (encodeBit p w e).sbits = nextSbits e.sbits := by
  cases h : stuffDue p w e.sbits (nextOnes w e.ones)
  · rw [encodeBit_plain h]
  · rw [encodeBit_stuffed h]

@[simp] theorem encodeBits_nil (p : StuffTrigger) (e : Enc) : encodeBits p [] e = e := rfl
@[simp] theorem encodeBits_cons (p : StuffTrigger) (w : Bit) (ws : List Bit) (e : Enc) :
    encodeBits p (w :: ws) e = encodeBits p ws (encodeBit p w e) := rfl

theorem encodeBits_append (p : StuffTrigger) (ws ws' : List Bit) (e : Enc) :
    encodeBits p (ws ++ ws') e = encodeBits p ws' (encodeBits p ws e) := by
  simp [encodeBits, List.foldl_append]

@[simp] theorem encodeBits_eacc (p : StuffTrigger) (ws : List Bit) (e : Enc) :
    (encodeBits p ws e).eacc = e.eacc := by
  induction ws generalizing e with
  | nil => rfl
  | cons w ws ih => simp [ih]

@[simp] theorem encodeBits_ecnt (p : StuffTrigger) (ws : List Bit) (e : Enc) :
    (encodeBits p ws e).ecnt = e.ecnt := by
  induction ws generalizing e with
  | nil => rfl
  | cons w ws ih => simp [ih]

/-! ### A group in the encoder unit -/

theorem packBit_joins {p : StuffTrigger} {t : Bit} {e : Enc} (h : e.ecnt ≠ 7) :
    packBit p t e = { e with eacc := appendGroupBit t e.eacc, ecnt := e.ecnt + 1 } := by
  have h7 : e.ecnt.toNat ≠ 7 := fun h' => h (BitVec.eq_of_toNat_eq (by simpa using h'))
  have : ¬ e.ecnt.toNat + 1 = Config.byteWidth := by simp only [Config.byteWidth]; omega
  simp only [packBit, this, if_false]
  congr 1

theorem packBit_sends {p : StuffTrigger} {t : Bit} {e : Enc} (h : e.ecnt = 7) :
    packBit p t e = serialize p 8 { e with eacc := appendGroupBit t e.eacc } := by
  simp [packBit, h, Config.byteWidth]

/-- The eight bits of a full group, in wire order: the last one read first. -/
theorem groupBits_full (t : Bit) (eacc : BitVec 8) :
    groupBits 8 (appendGroupBit t eacc) = t :: groupBits 7 eacc := by
  revert t eacc; decide

@[simp] theorem groupBits_length (k : Nat) (eacc : BitVec 8) : (groupBits k eacc).length = k := by
  simp [groupBits]

theorem flushGroup_eq (p : StuffTrigger) (e : Enc) :
    flushGroup p e = { encodeBits p (groupBits e.ecnt.toNat e.eacc) e with
      eacc := if 0 < e.ecnt.toNat then 0x00 else e.eacc, ecnt := 0 } := by
  by_cases h : 0 < e.ecnt.toNat
  · simp [flushGroup, serialize, h]
  · have h0 : e.ecnt = 0 := BitVec.eq_of_toNat_eq (by simpa using h)
    cases e
    simp only at h0
    subst h0
    rfl

end Sys2Proof.Machine
end

