-- ==== Sys2Proof/Laws/Step.lean ====
section
/-! SUPPORT. What an operation, a step and a run can do, said once: each operation is a function of the decoder unit
and a function of the encoder unit. -/

namespace Sys2Proof.Machine

/-- What an operation does to the decoder unit. -/
def decEffect : Instr → Dec → Dec
  | .decChip0, d => deliverChip false d
  | .decChip1, d => deliverChip true d
  | .decDelimBar, d => frameResetDec d
  | .decDelimNl, d => frameResetDec d
  | .decNoise _, d => d
  | .decEnd _, d => telegramResetDec d
  | .encBit0, d => d
  | .encBit1, d => d
  | .encDelimBar, d => d
  | .encDelimNl, d => d
  | .encNoise _, d => d
  | .encEnd _, d => d
  | .codecEnc0, d => d
  | .codecEnc1, d => d
  | .sym01 i, d => channelBit i false d
  | .sym10 i, d => channelBit i true d
  | .sym00 i, d => d.setCh i Channel.reset
  | .sym11 i, d => d.setCh i Channel.reset

/-- What an operation does to the encoder unit. -/
def encEffect (p : StuffTrigger) : Instr → Enc → Enc
  | .encBit0, e => packBit p false e
  | .encBit1, e => packBit p true e
  | .encDelimBar, e => endFrameEnc p .bar e
  | .encDelimNl, e => endFrameEnc p .nl e
  | .encNoise _, e => e
  | .encEnd _, e => endTelegramEnc p e
  | .codecEnc0, e => symEncode false e
  | .codecEnc1, e => symEncode true e
  | .decChip0, e => e
  | .decChip1, e => e
  | .decDelimBar, e => e
  | .decDelimNl, e => e
  | .decNoise _, e => e
  | .decEnd _, e => e
  | .sym01 _, e => e
  | .sym10 _, e => e
  | .sym00 _, e => e
  | .sym11 _, e => e

/-- Every operation is its effect on the two units. -/
theorem exec_eq (i : Instr) (s : State) :
    exec i s = .next { s with dec := decEffect i s.dec, enc := encEffect s.cfg.stuffTrigger i s.enc } := by
  cases i <;> rfl

theorem exec_chip (c : Chip) (s : State) :
    exec (if c then .decChip1 else .decChip0) s = .next { s with dec := deliverChip c s.dec } := by
  cases c <;> rfl

theorem exec_bit (t : Bit) (s : State) :
    exec (if t then .encBit1 else .encBit0) s = .next { s with enc := packBit s.cfg.stuffTrigger t s.enc } := by
  cases t <;> rfl

theorem exec_legalSymbol (i : Chan) (b : Bit) (s : State) :
    exec (if b then .sym10 i else .sym01 i) s = .next { s with dec := channelBit i b s.dec } := by
  cases b <;> rfl

/-- The model's window shift is the spec's `{b, win[7:1]}`. -/
theorem shiftWindow_eq_windowAfter (b : Bit) (win : BitVec 8) : shiftWindow b win = windowAfter b win := by
  revert b win; decide

theorem encEffect_of_decPort (p : StuffTrigger) {i : Instr} (h : i.port = .dec ∨ ∃ c, i.port = .sym c) (e : Enc) :
    encEffect p i e = e := by
  cases i <;> simp_all [Instr.port, encEffect]

theorem decEffect_of_encPort {i : Instr} (h : i.port = .enc ∨ i.port = .codec) (d : Dec) :
    decEffect i d = d := by
  cases i <;> simp_all [Instr.port, decEffect]

/-! ### One step -/

theorem step_wait {s : State} (h : s.input = []) : step s = .next s := by simp [step, h]

theorem step_rst {s : State} {rest : List Event} (h : s.input = .rst :: rest) :
    step s = .next (applyReset { s with input := rest }) := by simp [step, h]

theorem step_word {s : State} {o : Offer} {rest : List Event} (h : s.input = .word o :: rest) :
    step s = exec (decode o) { s with input := rest } := by simp [step, h]

/-- What a step can be: waiting, the reset input, or the operation of the next word. -/
theorem step_cases (s : State) :
    (s.input = [] ∧ step s = .next s) ∨
    (∃ rest, s.input = .rst :: rest ∧ step s = .next (applyReset { s with input := rest })) ∨
    (∃ o rest, s.input = .word o :: rest ∧ step s = .next
      { s with
        dec := decEffect (decode o) s.dec
        enc := encEffect s.cfg.stuffTrigger (decode o) s.enc
        input := rest }) := by
  rcases h : s.input with _ | ⟨_ | _, rest⟩
  · exact .inl ⟨rfl, step_wait h⟩
  · exact .inr (.inr ⟨_, rest, rfl, by rw [step_word h, exec_eq]⟩)
  · exact .inr (.inl ⟨rest, rfl, step_rst h⟩)

/-! ### A run over words -/

theorem run_nil (s : State) : run [] s = .next { s with input := [] } := rfl

theorem run_cons (o : Offer) (evs : List Event) (s : State) :
    run (.word o :: evs) s = run evs { s with
      dec := decEffect (decode o) s.dec
      enc := encEffect s.cfg.stuffTrigger (decode o) s.enc } := by
  have h : step { s with input := .word o :: evs } = .next { s with
      dec := decEffect (decode o) s.dec
      enc := encEffect s.cfg.stuffTrigger (decode o) s.enc
      input := evs } := by rw [step_word rfl, exec_eq]
  simp only [run, List.length_cons, Host.Core.run]
  rw [show Sys2Proof.core.step { s with input := .word o :: evs } = _ from h]

/-- A run over words is each unit's run over the words' operations. -/
theorem run_words (os : List Offer) (s : State) :
    run (os.map .word) s = .next { s with
      dec := os.foldl (fun d o => decEffect (decode o) d) s.dec
      enc := os.foldl (fun e o => encEffect s.cfg.stuffTrigger (decode o) e) s.enc
      input := [] } := by
  induction os generalizing s with
  | nil => rfl
  | cons o os ih => rw [List.map_cons, run_cons, ih]; rfl

/-! ### The words of digits -/

theorem decode_dec_digit (c : Chip) : decode (.dec (digitWord c)) = if c then .decChip1 else .decChip0 := by
  cases c <;> decide

theorem decode_enc_digit (t : Bit) : decode (.enc (digitWord t)) = if t then .encBit1 else .encBit0 := by
  cases t <;> decide

theorem decode_sym_legal (i : Chan) (b : Bit) :
    decode (.sym i (if b then 0b10 else 0b01)) = if b then .sym10 i else .sym01 i := by
  cases b <;> rfl

theorem decEffect_chip (c : Chip) (d : Dec) :
    decEffect (if c then .decChip1 else .decChip0) d = deliverChip c d := by cases c <;> rfl

theorem encEffect_bit (p : StuffTrigger) (t : Bit) (e : Enc) :
    encEffect p (if t then .encBit1 else .encBit0) e = packBit p t e := by cases t <;> rfl

/-- A run over chips delivers them one by one to the decoder unit. -/
theorem run_decDigits (cs : List Chip) (s : State) :
    run (cs.map decDigit) s = .next { s with
      dec := cs.foldl (fun d c => deliverChip c d) s.dec, input := [] } := by
  have := run_words (cs.map fun c => .dec (digitWord c)) s
  simp only [List.map_map, List.foldl_map, decode_dec_digit, decEffect_chip] at this
  rw [show cs.map decDigit = cs.map (Event.word ∘ fun c => .dec (digitWord c)) from rfl, this]
  congr 2
  exact List.foldl_fixed' (fun c => by cases c <;> rfl) cs

/-- A run over the legal symbols of bits gives them one by one to the channel. -/
theorem run_symOf (i : Chan) (bs : List Bit) (s : State) :
    run (bs.map (symOf i)) s = .next { s with
      dec := bs.foldl (fun d b => channelBit i b d) s.dec, input := [] } := by
  have := run_words (bs.map fun b => .sym i (if b then 0b10 else 0b01)) s
  simp only [List.map_map, List.foldl_map, decode_sym_legal] at this
  rw [show bs.map (symOf i) = bs.map (Event.word ∘ fun b => .sym i (if b then 0b10 else 0b01)) from rfl, this]
  congr 2
  · congr 1
    funext d b
    cases b <;> rfl
  · exact List.foldl_fixed' (fun b => by cases b <;> rfl) bs

/-- A run over bit characters packs them one by one in the encoder unit. -/
theorem run_encDigits (text : List Bit) (s : State) :
    run (text.map encDigit) s = .next { s with
      enc := text.foldl (fun e t => packBit s.cfg.stuffTrigger t e) s.enc, input := [] } := by
  have := run_words (text.map fun t => .enc (digitWord t)) s
  simp only [List.map_map, List.foldl_map, decode_enc_digit, encEffect_bit] at this
  rw [show text.map encDigit = text.map (Event.word ∘ fun t => .enc (digitWord t)) from rfl, this]
  congr 2
  exact List.foldl_fixed' (fun t => by cases t <;> rfl) text

/-- What the word that ends a frame does to the encoder unit. -/
def endOfFrameEnc (p : StuffTrigger) : Option DelimKind → Enc → Enc
  | none, e => endTelegramEnc p e
  | some k, e => endFrameEnc p k e

/-- A run over a text and the word that ends the frame packs the bit characters and ends the frame. -/
theorem run_encFrame (text : List Bit) (ending : Option DelimKind) (s : State) :
    run (text.map encDigit ++ [encFrameEnd ending]) s = .next { s with
      enc := endOfFrameEnc s.cfg.stuffTrigger ending
        (text.foldl (fun e t => packBit s.cfg.stuffTrigger t e) s.enc)
      input := [] } := by
  obtain ⟨o, ho, hd, he⟩ : ∃ o, encFrameEnd ending = .word o ∧ (∀ d, decEffect (decode o) d = d) ∧
      ∀ e, encEffect s.cfg.stuffTrigger (decode o) e = endOfFrameEnc s.cfg.stuffTrigger ending e := by
    rcases ending with _ | _ | _ <;> exact ⟨_, rfl, fun _ => rfl, fun _ => rfl⟩
  have := run_words (text.map (fun t => .enc (digitWord t)) ++ [o]) s
  simp only [List.map_map, List.map_append, List.map_cons, List.map_nil, List.foldl_append, List.foldl_map,
    List.foldl_cons, List.foldl_nil, decode_enc_digit, encEffect_bit, hd, he] at this
  rw [show text.map encDigit = text.map (Event.word ∘ fun t => .enc (digitWord t)) from rfl, ho, this]
  congr 2
  exact List.foldl_fixed' (fun t => by cases t <;> rfl) text

end Sys2Proof.Machine
end

