-- ==== Sys2Proof/Laws/Encoder.lean ====
section
/-! SUPPORT. The encoder unit over lists of bits: the group buffer as a list, and the saturating counters against
counters that never saturate. -/

namespace Sys2Proof.Machine

/-! ### The group buffer -/

theorem bufferBits_eq_groupBits (k : Nat) (eacc : BitVec 8) : bufferBits k eacc = groupBits k eacc := rfl

/-- A bit character enters the buffer's list at its front. -/
theorem groupBits_append (t : Bit) (eacc : BitVec 8) (k : Nat) (hk : k < 8) :
    groupBits (k + 1) (appendGroupBit t eacc) = t :: groupBits k eacc := by
  have h0 : (appendGroupBit t eacc).getLsbD 0 = t := by
    cases t <;> simp [appendGroupBit]
  have hs : ∀ j, j < 7 → (appendGroupBit t eacc).getLsbD (j + 1) = eacc.getLsbD j := by
    intro j hj
    cases t <;> simp [appendGroupBit] <;> omega
  simp only [groupBits, List.range_succ_eq_map, List.map_cons, h0, List.map_map, List.cons.injEq, true_and]
  refine List.map_congr_left fun j hj => ?_
  have := List.mem_range.mp hj
  exact hs j (by omega)

/-! ### Counters that never saturate -/

/-- The encoder's counters stand for the unbounded counts `ones` and `sbits`. -/
structure Enc.Counts (e : Enc) (ones sbits : Nat) : Prop where
  ones_eq : e.ones.toNat = min ones 7
  sbits_eq : min e.sbits.toNat 8 = min sbits 8

theorem Enc.counts_self (e : Enc) : e.Counts e.ones.toNat e.sbits.toNat :=
  ⟨by have := e.ones.isLt; omega, rfl⟩

/-- Saturation loses nothing in the stuffing test. -/
theorem stuffDue_eq_wide {e : Enc} {n k : Nat} (h : e.Counts n k) (p : StuffTrigger) (w : Bit) :
    stuffDue p w e.sbits (nextOnes w e.ones) = wideStuffDue p w k (if w then n + 1 else 0) := by
  have h1 := h.ones_eq
  have h2 := h.sbits_eq
  cases w
  · rfl
  · have hs : stuffActive e.sbits = decide (8 ≤ k) := by
      have : 8 ≤ e.sbits.toNat ↔ 8 ≤ k := by omega
      simp [stuffActive, Config.stuffStart, this]
    have ho : (nextOnes true e.ones).toNat = min (n + 1) 7 := by
      rw [nextOnes_toNat]; simp only [if_true]; omega
    have h5 : min (n + 1) 7 = 5 ↔ n + 1 = 5 := by omega
    have h5' : 5 ≤ min (n + 1) 7 ↔ 5 ≤ n + 1 := by omega
    cases p
    · simp only [stuffDue, wideStuffDue, trigger, Config.stuffRun, hs, ho, h5, if_true]
    · simp only [stuffDue, wideStuffDue, trigger, Config.stuffRun, hs, ho, h5', if_true]

/-- One logical bit on saturating counters does what it does on unbounded ones. -/
theorem encodeBit_wide {e : Enc} {n k : Nat} (h : e.Counts n k) (p : StuffTrigger) (w : Bit) :
    (encodeBit p w e).Counts
      (if wideStuffDue p w k (if w then n + 1 else 0) then 0 else if w then n + 1 else 0) (k + 1) ∧
    (encodeBit p w e).out = e.out ++
      if wideStuffDue p w k (if w then n + 1 else 0) then [.chip w, .chip (!w), .chip false, .chip true]
      else [.chip w, .chip (!w)] := by
  have h1 := h.ones_eq
  have h2 := h.sbits_eq
  have hs := stuffDue_eq_wide h p w
  have hk : min (nextSbits e.sbits).toNat 8 = min (k + 1) 8 := by rw [nextSbits_toNat]; omega
  rcases hd : wideStuffDue p w k (if w then n + 1 else 0) with _ | _ <;> rw [hd] at hs
  · rw [encodeBit_plain hs]
    refine ⟨⟨?_, hk⟩, by simp⟩
    simp only [nextOnes_toNat]
    cases w
    · simp
    · simp; omega
  · rw [encodeBit_stuffed hs]
    exact ⟨⟨by simp, hk⟩, by simp⟩

/-- A list of logical bits on saturating counters does what it does on unbounded ones. -/
theorem encodeBits_wide (p : StuffTrigger) (ws : List Bit) {e : Enc} {n k : Nat} (h : e.Counts n k) :
    (encodeBits p ws e).Counts (wideOnes p ws n k) (k + ws.length) ∧
    (encodeBits p ws e).out = e.out ++ (wideChips p ws n k).map .chip := by
  induction ws generalizing e n k with
  | nil => simpa [wideOnes, wideChips] using h
  | cons w ws ih =>
    obtain ⟨hc, ho⟩ := encodeBit_wide h p w
    obtain ⟨ihc, iho⟩ := ih hc
    rw [encodeBits_cons]
    refine ⟨?_, ?_⟩
    · rw [List.length_cons, ← Nat.add_assoc, Nat.add_right_comm]
      exact ihc
    · rw [iho, ho]
      rcases hd : wideStuffDue p w k (if w then n + 1 else 0) with _ | _ <;> simp [wideChips, hd]

theorem encodeBits_out (p : StuffTrigger) (ws : List Bit) (e : Enc) :
    (encodeBits p ws e).out = e.out ++ (wideChips p ws e.ones.toNat e.sbits.toNat).map .chip :=
  (encodeBits_wide p ws e.counts_self).2

/-- The bit-stuffer neither reads nor writes the group buffer. -/
theorem encodeBits_withGroup (p : StuffTrigger) (ws : List Bit) (e : Enc) (eacc : BitVec 8) (ecnt : BitVec 3) :
    encodeBits p ws { e with eacc := eacc, ecnt := ecnt } =
      { encodeBits p ws e with eacc := eacc, ecnt := ecnt } := by
  induction ws generalizing e with
  | nil => rfl
  | cons w ws ih =>
    rw [encodeBits_cons, encodeBits_cons, ← ih]
    congr 1
    rcases h : stuffDue p w e.sbits (nextOnes w e.ones) with _ | _
    · rw [encodeBit_plain h, encodeBit_plain (e := { e with eacc := eacc, ecnt := ecnt }) h]
    · rw [encodeBit_stuffed h, encodeBit_stuffed (e := { e with eacc := eacc, ecnt := ecnt }) h]

/-- A full or a partial group leaves as its bits in wire order, and the buffer is empty. -/
theorem serialize_eq (p : StuffTrigger) (k : Nat) (e : Enc) :
    serialize p k e = { encodeBits p (groupBits k e.eacc) e with eacc := 0x00, ecnt := 0 } := rfl

/-! ### A frame's text -/

/-- Packing a text and flushing the last group sends the text in wire order. -/
theorem packText_flush (p : StuffTrigger) (text : List Bit) (e : Enc) :
    (flushGroup p (text.foldl (fun e t => packBit p t e) e)).out =
      (encodeBits p (wireOrder (groupBits e.ecnt.toNat e.eacc) text) e).out := by
  induction text generalizing e with
  | nil => simp [flushGroup_eq, wireOrder]
  | cons t ts ih =>
    rw [List.foldl_cons, ih]
    by_cases h : e.ecnt = 7
    · have h7 : e.ecnt.toNat = 7 := by rw [h]; rfl
      rw [packBit_sends h, serialize_eq, groupBits_full]
      simp only [encodeBits_withGroup, h7, wireOrder, groupBits_length, if_true]
      rw [encodeBits_append]
      simp [groupBits]
    · have h7 : e.ecnt.toNat < 7 := by
        have h8 := e.ecnt.isLt
        have : e.ecnt.toNat ≠ 7 := fun h' => h (BitVec.eq_of_toNat_eq h')
        omega
      have hn : (e.ecnt + 1).toNat = e.ecnt.toNat + 1 := by rw [BitVec.toNat_add]; simp; omega
      rw [packBit_joins h, encodeBits_withGroup]
      simp only [hn, groupBits_append t e.eacc _ (show e.ecnt.toNat < 8 by omega), wireOrder, groupBits_length]
      rw [if_neg (by omega)]

/-- A frame's text from the start of a frame to its end: the chips of the text in wire order leave, then the delimiter's
token if there is one, and every register is at its reset value. -/
theorem endOfFrameEnc_packText (p : StuffTrigger) (text : List Bit) (ending : Option DelimKind) {e : Enc}
    (h : e.FrameStart) :
    endOfFrameEnc p ending (text.foldl (fun e t => packBit p t e) e) =
      { Enc.reset with
        out := e.out ++ (wideChips p (wireOrder [] text) 0 0).map .chip ++ ending.toList.map .delim } := by
  obtain ⟨-, hc, ho, hs⟩ := h
  have := packText_flush p text e
  rw [encodeBits_out, hc, ho, hs, show groupBits (0 : BitVec 3).toNat e.eacc = [] from rfl] at this
  cases ending <;> simp [endOfFrameEnc, endTelegramEnc, endFrameEnc, frameResetEnc_eq_reset, Enc.emit, this]

end Sys2Proof.Machine
end

