-- ==== Sys2Proof/Laws/Invariant.lean ====
section
/-! SUPPORT. The clauses of the invariant, operation by operation. -/

namespace Sys2Proof.Machine

/-! ### A channel -/

theorem Channel.inv_reset : Channel.reset.Inv := by decide

/-- The window's top bits that show a run of `run` ones and the zero below them. -/
abbrev showsRun (win : BitVec 8) (run : BitVec 3) : Prop :=
  win.toNat / 2 ^ (7 - run.toNat) = 2 ^ (run.toNat + 1) - 2

theorem showsRun_shift : ∀ (b : Bit) (run : BitVec 3) (win : BitVec 8), run.toNat ≤ 6 → showsRun win run →
    isIllegalRun b run = false →
    (nextRun b run).toNat ≤ 6 ∧ showsRun (shiftWindow b win) (nextRun b run) := by decide

/-- A sync match is at a zero after exactly six ones. -/
theorem run_of_match : ∀ (b : Bit) (run : BitVec 3) (win : BitVec 8), run.toNat ≤ 6 → showsRun win run →
    isSyncWord (shiftWindow b win) = true → b = false ∧ run = 6 := by decide

/-- A data bit at position `cnt` leaves the bits above it 0. -/
theorem insertDataBit_lt {b : Bit} {cnt : BitVec 3} {acc : BitVec 8} (h : acc.toNat < 2 ^ cnt.toNat) :
    (insertDataBit b cnt acc).toNat < 2 ^ (cnt.toNat + 1) := by
  have hb : ((BitVec.ofBool b).setWidth 8 <<< cnt.toNat : BitVec 8).toNat < 2 ^ (cnt.toNat + 1) := by
    clear h; revert b cnt; decide
  rw [insertDataBit, BitVec.toNat_or]
  exact Nat.or_lt_two_pow (lt_of_lt_of_le h (Nat.pow_le_pow_right (by decide) (by omega))) hb

/-- A channel whose accumulator is empty. -/
theorem Channel.inv_of_empty {win : BitVec 8} {run : BitVec 3} (sync : Bool) (hr : run.toNat ≤ 6)
    (hw : showsRun win run) : (⟨win, run, 0x00, 0, sync⟩ : Channel).Inv :=
  ⟨hr, Nat.one_pos, fun _ => ⟨rfl, rfl⟩, hw⟩

/-- A deactivated channel keeps its window and run, and so its invariant. -/
theorem Channel.Inv.deactivated {c : Channel} (h : c.Inv) :
    ({ c with sync := false, acc := 0x00, cnt := 0 } : Channel).Inv :=
  Channel.inv_of_empty false h.1 h.2.2.2

/-- The window and the run of a legal bit that is not appended. -/
theorem Channel.Inv.shifted {c : Channel} (h : c.Inv) {b : Bit} (hi : isIllegalRun b c.run = false) :
    (c.shifted b).Inv :=
  have hs := showsRun_shift b c.run c.win h.1 h.2.2.2 hi
  ⟨hs.1, h.2.1, h.2.2.1, hs.2⟩

/-- The eight bits of a byte are complete, and the accumulator is empty again. -/
theorem Channel.Inv.emptied {c : Channel} (h : c.Inv) {b : Bit} (hi : isIllegalRun b c.run = false)
    (sync : Bool) : ({ c.shifted b with acc := 0x00, cnt := 0, sync := sync } : Channel).Inv :=
  have hs := showsRun_shift b c.run c.win h.1 h.2.2.2 hi
  Channel.inv_of_empty sync hs.1 hs.2

/-- One more data bit. -/
theorem Channel.Inv.appended {c : Channel} (h : c.Inv) {b : Bit} (hi : isIllegalRun b c.run = false)
    (hsync : c.sync = true) (hc : c.cnt.toNat ≠ 7) :
    ({ c.shifted b with acc := insertDataBit b c.cnt c.acc, cnt := c.cnt + 1 } : Channel).Inv := by
  have hs := showsRun_shift b c.run c.win h.1 h.2.2.2 hi
  have hn : (c.cnt + 1).toNat = c.cnt.toNat + 1 := by
    have := c.cnt.isLt
    rw [BitVec.toNat_add]; simp; omega
  refine ⟨hs.1, ?_, fun hf => ?_, hs.2⟩
  · rw [hn]; exact insertDataBit_lt h.2.1
  · rw [show c.sync = false from hf] at hsync; exact absurd hsync (by decide)

/-! ### The encoder unit -/

theorem appendGroupBit_lt {t : Bit} {eacc : BitVec 8} {k : Nat} (h : eacc.toNat < 2 ^ k) :
    (appendGroupBit t eacc).toNat < 2 ^ (k + 1) := by
  have ht : ((BitVec.ofBool t).setWidth 8 : BitVec 8).toNat < 2 ^ (k + 1) := by
    have : ((BitVec.ofBool t).setWidth 8 : BitVec 8).toNat < 2 := by revert t; decide
    exact lt_of_lt_of_le this (by rw [Nat.pow_succ]; have := Nat.one_le_two_pow (n := k); omega)
  have he : (eacc <<< 1).toNat < 2 ^ (k + 1) := by
    rw [BitVec.toNat_shiftLeft, Nat.shiftLeft_eq, Nat.pow_succ 2 k]
    exact lt_of_le_of_lt (Nat.mod_le _ _) (by omega)
  rw [appendGroupBit, BitVec.toNat_or]
  exact Nat.or_lt_two_pow he ht

/-- Eight or more logical bits saturate the frame's bit count. -/
theorem encodeBits_sbits (p : StuffTrigger) (ws : List Bit) (e : Enc) (hs : e.sbits.toNat ≤ 8) :
    (encodeBits p ws e).sbits.toNat = min (e.sbits.toNat + ws.length) 8 := by
  induction ws generalizing e with
  | nil => simp; omega
  | cons w ws ih =>
    have h1 : (encodeBit p w e).sbits.toNat = min (e.sbits.toNat + 1) 8 := by
      rw [encodeBit_sbits, nextSbits_toNat]
    rw [encodeBits_cons, ih _ (by omega), h1, List.length_cons]
    omega

/-- A frame's end leaves the encoder unit reset. -/
theorem Enc.inv_reset (out : List EncToken) : ({ Enc.reset with out := out } : Enc).Inv :=
  ⟨Nat.one_pos, .inl ⟨rfl, rfl⟩⟩

end Sys2Proof.Machine
end

