-- ==== Sys2Proof/Laws/PerInstr.lean ====
section
/-! SUPPORT. The statement made of every operation as syntax: its encoded word belongs to its component, fits the
component's width, and stands whole in its bytes (spec/30_encoding.md R47, R51; log entry 9). -/

namespace Sys2Proof.Laws.EncodedWord

/-- The word of `i` is one of `i`'s component, fits the component's width, and its bytes hold it whole. -/
def Statement (i : Instr) : Prop :=
  (encode i).port = i.port ∧ (encode i).number < 2 ^ i.port.width ∧
    (encodeBytes i).length = i.port.nbytes ∧ numberOfBytes (encodeBytes i) = (encode i).number

theorem statement_of_lt {i : Instr} (h : (encode i).number < 2 ^ i.port.width)
    (hb : 2 ^ i.port.width ≤ 256 ^ i.port.nbytes) : Statement i :=
  ⟨encode_port i, h, by simp [encodeBytes],
    by rw [encodeBytes, numberOfBytes_bytesOfNumber, Nat.mod_eq_of_lt (Nat.lt_of_lt_of_le h hb)]⟩

theorem decChip0 : Statement .decChip0 := statement_of_lt (by decide) (by decide)
theorem decChip1 : Statement .decChip1 := statement_of_lt (by decide) (by decide)
theorem decDelimBar : Statement .decDelimBar := statement_of_lt (by decide) (by decide)
theorem decDelimNl : Statement .decDelimNl := statement_of_lt (by decide) (by decide)
theorem decNoise (c : Byte) : Statement (.decNoise c) := statement_of_lt (BitVec.isLt _) (by decide : 512 ≤ 65536)
theorem decEnd (c : Byte) : Statement (.decEnd c) := statement_of_lt (BitVec.isLt _) (by decide : 512 ≤ 65536)
theorem encBit0 : Statement .encBit0 := statement_of_lt (by decide) (by decide)
theorem encBit1 : Statement .encBit1 := statement_of_lt (by decide) (by decide)
theorem encDelimBar : Statement .encDelimBar := statement_of_lt (by decide) (by decide)
theorem encDelimNl : Statement .encDelimNl := statement_of_lt (by decide) (by decide)
theorem encNoise (c : Byte) : Statement (.encNoise c) := statement_of_lt (BitVec.isLt _) (by decide : 512 ≤ 65536)
theorem encEnd (c : Byte) : Statement (.encEnd c) := statement_of_lt (BitVec.isLt _) (by decide : 512 ≤ 65536)
theorem codecEnc0 : Statement .codecEnc0 := statement_of_lt (by decide) (by decide)
theorem codecEnc1 : Statement .codecEnc1 := statement_of_lt (by decide) (by decide)
theorem sym01 (i : Chan) : Statement (.sym01 i) := statement_of_lt (BitVec.isLt (_ : BitVec 2)) (by decide : 4 ≤ 256)
theorem sym10 (i : Chan) : Statement (.sym10 i) := statement_of_lt (BitVec.isLt (_ : BitVec 2)) (by decide : 4 ≤ 256)
theorem sym00 (i : Chan) : Statement (.sym00 i) := statement_of_lt (BitVec.isLt (_ : BitVec 2)) (by decide : 4 ≤ 256)
theorem sym11 (i : Chan) : Statement (.sym11 i) := statement_of_lt (BitVec.isLt (_ : BitVec 2)) (by decide : 4 ≤ 256)

end Sys2Proof.Laws.EncodedWord
end

