-- ==== Sys2Proof/Laws/Phase.lean ====
section
/-! SUPPORT. The two phase channels on the symbols of bits: what a channel does reads neither `prev`, nor `sel`, nor a
quiet other channel, and the channel of the wrong phase stays quiet (spec/42_phase_channel.md R99). -/

namespace Sys2Proof.Machine

/-- A channel that is not synchronized and holds nothing in its accumulator. -/
structure Channel.Quiet (c : Channel) : Prop where
  sync_eq : c.sync = false
  acc_eq : c.acc = 0x00
  cnt_eq : c.cnt = 0

theorem Channel.quiet_reset : Channel.reset.Quiet := ⟨rfl, rfl, rfl⟩

/-- A sync match leaves a quiet other channel as it is. -/
theorem Channel.Quiet.deactivated {c : Channel} (h : c.Quiet) :
    ({ c with sync := false, acc := 0x00, cnt := 0 } : Channel) = c := by
  obtain ⟨h1, h2, h3⟩ := h
  cases c
  simp_all

/-! ### What a channel's step does not read -/

@[simp] theorem Dec.ch_withPrevSel (d : Dec) (p : Option Chip) (j i : Chan) :
    ({ d with prev := p, sel := j } : Dec).ch i = d.ch i := by cases i <;> rfl

theorem Dec.setCh_withPrevSel (d : Dec) (p : Option Chip) (j i : Chan) (c : Channel) :
    ({ d with prev := p, sel := j } : Dec).setCh i c = { d.setCh i c with prev := p, sel := j } := by
  cases i <;> rfl

/-- A channel's step neither reads nor writes `prev` and `sel`. -/
theorem channelBit_withPrevSel (i : Chan) (b : Bit) (d : Dec) (p : Option Chip) (j : Chan) :
    channelBit i b { d with prev := p, sel := j } = { channelBit i b d with prev := p, sel := j } := by
  have h : ({ d with prev := p, sel := j } : Dec).ch i = d.ch i := Dec.ch_withPrevSel d p j i
  rcases channelBit_cases i b d with ⟨h1, e⟩ | ⟨h1, h2, e⟩ | ⟨h1, h2, h3, e⟩ | ⟨h1, h2, h3, h4, e⟩ |
    ⟨h1, h2, h3, h4, e⟩ <;> rw [e]
  · rw [channelBit_illegalRun (by rw [h]; exact h1), Dec.setCh_withPrevSel]
  · rw [channelBit_match (by rw [h]; exact h1) (by rw [h]; exact h2)]
    cases i <;> rfl
  · rw [channelBit_quiet (by rw [h]; exact h1) (by rw [h]; exact h2) (by rw [h]; exact h3), h,
      Dec.setCh_withPrevSel]
  · rw [channelBit_append (by rw [h]; exact h1) (by rw [h]; exact h2) (by rw [h]; exact h3)
      (by rw [h]; exact h4), h, Dec.setCh_withPrevSel]
  · rw [channelBit_append_full (by rw [h]; exact h1) (by rw [h]; exact h2) (by rw [h]; exact h3)
      (by rw [h]; exact h4), h, Dec.setCh_withPrevSel]
    rfl

/-- A channel's step neither reads nor writes a quiet other channel, but that a match makes it what it is. -/
theorem channelBit_withQuietOther (i : Chan) (b : Bit) (d : Dec) {c : Channel} (hc : c.Quiet) :
    channelBit i b (d.setCh i.other c) = (channelBit i b d).setCh i.other c := by
  have h : (d.setCh i.other c).ch i = d.ch i := Dec.ch_setCh_other d i c
  rcases channelBit_cases i b d with ⟨h1, e⟩ | ⟨h1, h2, e⟩ | ⟨h1, h2, h3, e⟩ | ⟨h1, h2, h3, h4, e⟩ |
    ⟨h1, h2, h3, h4, e⟩ <;> rw [e]
  · rw [channelBit_illegalRun (by rw [h]; exact h1), Dec.setCh_other_comm]
  · rw [channelBit_match (by rw [h]; exact h1) (by rw [h]; exact h2), h, Dec.ch_setCh_self, hc.deactivated,
      emitByte_setCh]
    cases i <;> rfl
  · rw [channelBit_quiet (by rw [h]; exact h1) (by rw [h]; exact h2) (by rw [h]; exact h3), h,
      Dec.setCh_other_comm]
  · rw [channelBit_append (by rw [h]; exact h1) (by rw [h]; exact h2) (by rw [h]; exact h3)
      (by rw [h]; exact h4), h, Dec.setCh_other_comm]
  · rw [channelBit_append_full (by rw [h]; exact h1) (by rw [h]; exact h2) (by rw [h]; exact h3)
      (by rw [h]; exact h4), h, Dec.setCh_other_comm, emitByte_setCh]

/-! ### The wrong phase -/

/-- A channel that has decoded only the constant bit `v` since its last reset: it has not locked, and its window shows a
run of zeros or of at most six ones. -/
structure Channel.Constant (v : Bit) (c : Channel) : Prop where
  quiet : c.Quiet
  run_le : c.run.toNat ≤ 6
  run_of_zero : v = false → c.run = 0
  win_eq : c.win.toNat = 2 ^ 8 - 2 ^ (8 - c.run.toNat)

theorem Channel.constant_reset (v : Bit) : Channel.reset.Constant v :=
  ⟨Channel.quiet_reset, by decide, fun _ => rfl, by decide⟩

/-- In a constant channel the shift gives no sync word. -/
theorem Channel.Constant.no_match {v : Bit} {c : Channel} (h : c.Constant v) :
    isSyncWord (shiftWindow v c.win) = false := by
  cases v
  · have hr := h.run_of_zero rfl
    have hw := h.win_eq
    rw [hr] at hw
    have : c.win = 0x00 := BitVec.eq_of_toNat_eq (by simpa using hw)
    rw [this]; decide
  · simp

/-- Window and run of a constant channel after one more bit. -/
theorem constant_shift : ∀ (v : Bit) (run : BitVec 3), run.toNat ≤ 6 → (v = false → run = 0) →
    ¬ (v = true ∧ run = 6) →
    (nextRun v run).toNat ≤ 6 ∧ (v = false → nextRun v run = 0) ∧
    (shiftWindow v (BitVec.ofNat 8 (2 ^ 8 - 2 ^ (8 - run.toNat)))).toNat =
      2 ^ 8 - 2 ^ (8 - (nextRun v run).toNat) := by decide

/-- One more constant bit keeps the channel constant, and nothing is emitted. -/
theorem channelBit_constant {i : Chan} {v : Bit} {d : Dec} (h : (d.ch i).Constant v) :
    ∃ c, c.Constant v ∧ channelBit i v d = d.setCh i c := by
  rcases hi : isIllegalRun v (d.ch i).run with _ | _
  · refine ⟨(d.ch i).shifted v, ?_, channelBit_quiet hi h.no_match (by simp [h.quiet.sync_eq])⟩
    have hw : (d.ch i).win = BitVec.ofNat 8 (2 ^ 8 - 2 ^ (8 - (d.ch i).run.toNat)) := by
      rw [← h.win_eq]; simp
    rw [← Bool.not_eq_true, isIllegalRun_iff] at hi
    obtain ⟨h1, h2, h3⟩ := constant_shift v (d.ch i).run h.run_le h.run_of_zero hi
    rw [← hw] at h3
    exact ⟨⟨h.quiet.sync_eq, h.quiet.acc_eq, h.quiet.cnt_eq⟩, h1, h2, h3⟩
  · exact ⟨_, Channel.constant_reset v, channelBit_illegalRun hi⟩

/-- A symbol of the wrong phase, made of the last chip of the bit `x` and the first of the bit `y`: it is illegal, or
another bit `!x`. -/
theorem channelStep_wrongPhase {i : Chan} {x : Bit} (y : Bit) {d : Dec} (h : (d.ch i).Constant (!x)) :
    ∃ c, c.Constant (!y) ∧ channelStep i (!x) y d = d.setCh i c := by
  rcases channelStep_cases i (!x) y d with ⟨hxy, e⟩ | ⟨hxy, e⟩
  · exact ⟨_, Channel.constant_reset _, e⟩
  · obtain ⟨c, hc, e'⟩ := channelBit_constant h
    have : x = y := by cases x <;> cases y <;> simp_all
    subst this
    exact ⟨c, hc, by rw [e, e']⟩

/-- The decoder unit between two symbols of the true phase `r`: it is what the channel `r` alone has made of the bits,
but for `prev`, for `sel`, and for the wrong-phase channel, which is constant on the last bit's complement. -/
structure Dec.TracksPhase (r : Chan) (x : Bit) (d u : Dec) : Prop where
  other : (d.ch r.other).Constant (!x)
  eq : d = { u.setCh r.other (d.ch r.other) with prev := some (!x), sel := r.other }

/-- The two chips of the next bit keep the decoder unit on the true phase. -/
theorem Dec.TracksPhase.next {r : Chan} {x : Bit} {d u : Dec} (h : d.TracksPhase r x u) (y : Bit) :
    (deliverChip (!y) (deliverChip y d)).TracksPhase r y (channelBit r y u) := by
  obtain ⟨c, hc, e⟩ := channelStep_wrongPhase y h.other
  have hp : d.prev = some (!x) := by rw [h.eq]
  have hs : d.sel = r.other := by rw [h.eq]
  have h1 : deliverChip y d = { d.setCh r.other c with prev := some y, sel := r } := by
    rw [deliverChip_next y hp, hs, e, Chan.other_other]
  have h2 : d.setCh r.other c = { u.setCh r.other c with prev := some (!x), sel := r.other } := by
    rw [h.eq, Dec.setCh_withPrevSel, Dec.setCh_setCh_self]
  have h3 : deliverChip (!y) (deliverChip y d) =
      { (channelBit r y u).setCh r.other c with prev := some (!y), sel := r.other } := by
    rw [h1, deliverChip_next (!y) rfl, h2]
    have : channelStep r y (!y) ({ u.setCh r.other c with prev := some y, sel := r } : Dec) =
        channelBit r y { u.setCh r.other c with prev := some y, sel := r } := by cases y <;> rfl
    simp only [this, channelBit_withPrevSel, channelBit_withQuietOther r y u hc.quiet]
  have h4 : (deliverChip (!y) (deliverChip y d)).ch r.other = c := by
    rw [h3, Dec.ch_withPrevSel]; exact Dec.ch_setCh_self ..
  exact ⟨by rw [h4]; exact hc, by rw [h4]; exact h3⟩

/-- The chips of any further bits keep it there. -/
theorem Dec.TracksPhase.bits {r : Chan} (bs : List Bit) {x : Bit} {d u : Dec} (h : d.TracksPhase r x u) :
    ∃ y, ((manchester bs).foldl (fun d c => deliverChip c d) d).TracksPhase r y
      (bs.foldl (fun d b => channelBit r b d) u) := by
  induction bs generalizing x d u with
  | nil => exact ⟨x, h⟩
  | cons b bs ih => exact ih (h.next b)

/-- A frame that starts at a symbol: the true phase is that of Channel B. -/
theorem Dec.tracksPhase_start (b : Bit) {u : Dec} (hp : u.prev = none) (hs : u.sel = .a)
    (ha : u.chA = Channel.reset) :
    (deliverChip (!b) (deliverChip b u)).TracksPhase .b b (channelBit .b b u) := by
  have h1 : deliverChip b u = { u with prev := some b, sel := .b } := by
    rw [deliverChip_first b hp, hs]; rfl
  have hu : u = u.setCh .a Channel.reset := by rw [← ha]; rfl
  have h2 : deliverChip (!b) (deliverChip b u) = { channelBit .b b u with prev := some (!b), sel := .a } := by
    rw [h1, deliverChip_next (!b) rfl]
    have : channelStep .b b (!b) ({ u with prev := some b, sel := .b } : Dec) =
        channelBit .b b { u with prev := some b, sel := .b } := by cases b <;> rfl
    simp only [this, channelBit_withPrevSel]
    rfl
  have h3 : (channelBit .b b u).chA = Channel.reset := by
    have := channelBit_withQuietOther .b b u Channel.quiet_reset
    rw [show u.setCh Chan.b.other Channel.reset = u from hu.symm] at this
    rw [this]; rfl
  have h4 : (deliverChip (!b) (deliverChip b u)).ch Chan.b.other = Channel.reset := by rw [h2]; exact h3
  refine ⟨by rw [h4]; exact Channel.constant_reset _, ?_⟩
  rw [h4, h2]
  have h5 : channelBit .b b u = (channelBit .b b u).setCh Chan.b.other Channel.reset := by
    rw [← h3]; exact (Dec.setCh_ch_self (channelBit .b b u) .a).symm
  rw [← h5]
  rfl

/-- A frame with one extra chip before its first symbol: the true phase is that of Channel A. -/
theorem Dec.tracksPhase_startExtra (x : Chip) (b : Bit) {u : Dec} (hp : u.prev = none) (hs : u.sel = .a)
    (hb : u.chB = Channel.reset) :
    (deliverChip (!b) (deliverChip b (deliverChip x u))).TracksPhase .a b (channelBit .a b u) := by
  have h1 : deliverChip x u = { u with prev := some x, sel := .b } := by
    rw [deliverChip_first x hp, hs]; rfl
  have hc : ({ u with prev := some x, sel := .b } : Dec).ch .b = Channel.reset := hb
  obtain ⟨c, hc, e⟩ : ∃ c, c.Constant (!b) ∧
      channelStep .b x b ({ u with prev := some x, sel := .b } : Dec) =
        ({ u with prev := some x, sel := .b } : Dec).setCh .b c := by
    have := @channelStep_wrongPhase .b (!x) b { u with prev := some x, sel := .b }
      (by rw [hc]; exact Channel.constant_reset _)
    rwa [Bool.not_not] at this
  have h2 : deliverChip b (deliverChip x u) = { u.setCh .b c with prev := some b, sel := .a } := by
    rw [h1, deliverChip_next b rfl]
    simp only [e]
    rfl
  have h3 : deliverChip (!b) (deliverChip b (deliverChip x u)) =
      { (channelBit .a b u).setCh .b c with prev := some (!b), sel := .b } := by
    rw [h2, deliverChip_next (!b) rfl]
    have : channelStep .a b (!b) ({ u.setCh .b c with prev := some b, sel := .a } : Dec) =
        channelBit .a b { u.setCh .b c with prev := some b, sel := .a } := by cases b <;> rfl
    have hq := channelBit_withQuietOther .a b u hc.quiet
    simp only [this, channelBit_withPrevSel]
    rw [show u.setCh .b c = u.setCh Chan.a.other c from rfl, hq]
    rfl
  have h4 : (deliverChip (!b) (deliverChip b (deliverChip x u))).ch Chan.a.other = c := by rw [h3]; rfl
  exact ⟨by rw [h4]; exact hc, by rw [h4]; exact h3⟩

end Sys2Proof.Machine
end

