-- ==== Sys2Proof/Laws/Stream.lean ====
section
/-! SUPPORT. From the encoder's bits to the decoder's bytes: the stuffed bit stream, and a locked channel that receives
it (spec/43_decoder.md R117). -/

namespace Sys2Proof.Machine

/-! ### The stuffed bit stream -/

/-- The bits the chips of `wideChips` stand for, stuffed zeros included. -/
def stuffedBits (p : StuffTrigger) : List Bit → Nat → Nat → List Bit
  | [], _, _ => []
  | w :: ws, ones, sbits =>
    let ones' := if w then ones + 1 else 0
    if wideStuffDue p w sbits ones' then w :: false :: stuffedBits p ws 0 (sbits + 1)
    else w :: stuffedBits p ws ones' (sbits + 1)

theorem wideChips_eq_manchester (p : StuffTrigger) (ws : List Bit) (n k : Nat) :
    wideChips p ws n k = manchester (stuffedBits p ws n k) := by
  induction ws generalizing n k with
  | nil => rfl
  | cons w ws ih =>
    rcases h : wideStuffDue p w k (if w then n + 1 else 0) with _ | _ <;>
      simp [wideChips, stuffedBits, h, ih, manchester]

theorem stuffedBits_append (p : StuffTrigger) (ws ws' : List Bit) (n k : Nat) :
    stuffedBits p (ws ++ ws') n k =
      stuffedBits p ws n k ++ stuffedBits p ws' (wideOnes p ws n k) (k + ws.length) := by
  induction ws generalizing n k with
  | nil => rfl
  | cons w ws ih =>
    rcases h : wideStuffDue p w k (if w then n + 1 else 0) with _ | _ <;>
      simp [stuffedBits, wideOnes, h, ih, Nat.add_assoc, Nat.add_comm 1]

/-- The first eight bits of a frame are not stuffed, and what is left of the one-run is its own. -/
theorem stuffedBits_first (p : StuffTrigger) (ws : List Bit) (n k : Nat) (h : k + ws.length ≤ 8) :
    stuffedBits p ws n k = ws := by
  induction ws generalizing n k with
  | nil => rfl
  | cons w ws ih =>
    rw [List.length_cons] at h
    have hd : wideStuffDue p w k (if w then n + 1 else 0) = false := by
      have : ¬ 8 ≤ k := by omega
      simp [wideStuffDue, this]
    simp only [stuffedBits, hd]
    rw [if_neg (by decide), ih _ _ (by omega)]

/-- The text of bytes in wire order: each byte's bits, lowest-order first. -/
theorem wireOrder_bytes (bytes : List Byte) (tail : List Bit) (h : tail.length < 8) :
    wireOrder [] (bytes.flatMap byteText ++ tail) = bytes.flatMap (groupBits 8) ++ tail.reverse := by
  have short : ∀ (ts grp : List Bit), grp.length + ts.length < 8 → wireOrder grp ts = ts.reverse ++ grp := by
    intro ts
    induction ts with
    | nil => intro grp _; rfl
    | cons t ts ih =>
      intro grp hg
      rw [List.length_cons] at hg
      rw [wireOrder, if_neg (by omega), ih _ (by rw [List.length_cons]; omega)]
      simp
  induction bytes with
  | nil => simpa using short tail [] (by simpa using h)
  | cons v vs ih =>
    rw [List.flatMap_cons, List.flatMap_cons, List.append_assoc, List.append_assoc, ← ih]
    rfl

/-! ### A locked channel that receives data -/

/-- What a locked channel has received: its accumulator, its bit count, and the tokens of the unit. -/
structure Received where
  acc : BitVec 8
  cnt : BitVec 3
  out : List DecToken

/-- One data bit in a frame that has emitted: the eighth one emits the byte, with no separator. -/
def Received.collect (r : Received) (b : Bit) : Received :=
  if r.cnt.toNat = 7 then ⟨0x00, 0, r.out ++ [⟨insertDataBit b r.cnt r.acc, false⟩]⟩
  else ⟨insertDataBit b r.cnt r.acc, r.cnt + 1, r.out⟩

/-- Channel `i` is locked, has decoded `n` ones since the last zero, and has received `r`. -/
structure Dec.Receiving (i : Chan) (n : Nat) (r : Received) (d : Dec) : Prop where
  sync_eq : (d.ch i).sync = true
  shows : showsRun (d.ch i).win (d.ch i).run
  run_eq : (d.ch i).run.toNat = n
  run_le : n ≤ 5
  frameOut_eq : d.frameOut = true
  acc_eq : (d.ch i).acc = r.acc
  cnt_eq : (d.ch i).cnt = r.cnt
  out_eq : d.out = r.out

/-- A data bit after at most four ones is received. -/
theorem Dec.Receiving.data {i : Chan} {n : Nat} {r : Received} {d : Dec} (h : d.Receiving i n r) (hn : n ≤ 4)
    (b : Bit) : (channelBit i b d).Receiving i (if b then n + 1 else 0) (r.collect b) := by
  obtain ⟨hsync, hshow, hrun, -, hfo, hacc, hcnt, hout⟩ := h
  have hr6 : (d.ch i).run.toNat ≤ 6 := by omega
  have hne : ∀ v : BitVec 3, 5 ≤ v.toNat → (d.ch i).run ≠ v := by
    intro v hv h; rw [h] at hrun; omega
  have hi : isIllegalRun b (d.ch i).run = false := by
    rw [← Bool.not_eq_true, isIllegalRun_iff]
    exact fun h => hne 6 (by decide) h.2
  have hm : isSyncWord (shiftWindow b (d.ch i).win) = false := by
    rw [← Bool.not_eq_true]
    exact fun h => hne 6 (by decide) (run_of_match b _ _ hr6 hshow h).2
  have hs : ((d.ch i).sync && !isStuffed b (d.ch i).run) = true := by
    have : isStuffed b (d.ch i).run = false := by
      rw [← Bool.not_eq_true, isStuffed_iff]
      exact fun h => hne 5 (by decide) h.2
    simp [hsync, this]
  obtain ⟨-, hshow'⟩ := showsRun_shift b _ _ hr6 hshow hi
  have hrun' : (nextRun b (d.ch i).run).toNat = if b then n + 1 else 0 := by
    cases b
    · rfl
    · simp only [nextRun, if_true, BitVec.toNat_add]; simp; omega
  have hle : (if b then n + 1 else 0) ≤ 5 := by split <;> omega
  by_cases hc : (d.ch i).cnt.toNat = 7
  · rw [channelBit_append_full hi hm hs hc]
    refine ⟨by simpa using hsync, by simpa using hshow', by simpa using hrun', hle, rfl, ?_, ?_, ?_⟩ <;>
      simp [Received.collect, ← hcnt, hc, hfo, hout, hacc]
  · rw [channelBit_append hi hm hs hc]
    refine ⟨by simpa using hsync, by simpa using hshow', by simpa using hrun', hle, by simpa using hfo, ?_, ?_, ?_⟩ <;>
      simp [Received.collect, ← hcnt, hc, hout, hacc]

/-- A zero after exactly five ones is dropped. -/
theorem Dec.Receiving.stuffed {i : Chan} {r : Received} {d : Dec} (h : d.Receiving i 5 r) :
    (channelBit i false d).Receiving i 0 r := by
  obtain ⟨hsync, hshow, hrun, -, hfo, hacc, hcnt, hout⟩ := h
  have hr : (d.ch i).run = 5 := BitVec.eq_of_toNat_eq (by rw [hrun]; rfl)
  have hm : isSyncWord (shiftWindow false (d.ch i).win) = false := by
    rw [← Bool.not_eq_true]
    intro h
    have := (run_of_match false _ _ (by omega) hshow h).2
    rw [hr] at this; exact absurd this (by decide)
  obtain ⟨-, hshow'⟩ := showsRun_shift false _ _ (by omega) hshow rfl
  rw [channelBit_quiet rfl hm (by simp [hr, isStuffed, Config.stuffRun])]
  exact ⟨by simpa using hsync, by simpa using hshow', by simp [nextRun], by omega, by simpa using hfo,
    by simpa using hacc, by simpa using hcnt, by simpa using hout⟩

/-- A locked channel receives just the data bits of a stuffed stream, from bit 8 of the frame on. -/
theorem Dec.Receiving.stream {i : Chan} (p : StuffTrigger) (ws : List Bit) {n k : Nat} {r : Received} {d : Dec}
    (h : d.Receiving i n r) (hn : n ≤ 4) (hk : 8 ≤ k) :
    ∃ n' ≤ 4, ((stuffedBits p ws n k).foldl (fun d b => channelBit i b d) d).Receiving i n'
      (ws.foldl Received.collect r) := by
  induction ws generalizing n k r d with
  | nil => exact ⟨n, hn, h⟩
  | cons w ws ih =>
    have hd := h.data hn w
    rcases hdue : wideStuffDue p w k (if w then n + 1 else 0) with _ | _
    · have h4 : (if w then n + 1 else 0) ≤ 4 := by
        cases w
        · simp
        · have : n + 1 ≠ 5 := by
            intro h5
            cases p <;> simp [wideStuffDue, hk, h5] at hdue
          simp; omega
      obtain ⟨n', hn', hr⟩ := ih hd h4 (show 8 ≤ k + 1 by omega)
      refine ⟨n', hn', ?_⟩
      simpa [stuffedBits, hdue] using hr
    · have h5 : (if w then n + 1 else 0) = 5 := by
        cases w
        · simp [wideStuffDue] at hdue
        · cases p <;> simp [wideStuffDue, hk] at hdue ⊢ <;> omega
      rw [h5] at hd
      obtain ⟨n', hn', hr⟩ := ih hd.stuffed (by omega) (show 8 ≤ k + 1 by omega)
      refine ⟨n', hn', ?_⟩
      simpa [stuffedBits, hdue] using hr

/-- A bit that is legal and completes no match shifts into a Searching channel. -/
theorem channelBit_searching (i : Chan) (d : Dec) (win : BitVec 8) (run : BitVec 3) (b : Bit)
    (hi : isIllegalRun b run = false) (hm : isSyncWord (shiftWindow b win) = false) :
    channelBit i b (d.setCh i ⟨win, run, 0, 0, false⟩) = d.setCh i ⟨shiftWindow b win, nextRun b run, 0, 0, false⟩ := by
  rw [channelBit_quiet (by rw [Dec.ch_setCh_self]; exact hi) (by rw [Dec.ch_setCh_self]; exact hm)
    (by rw [Dec.ch_setCh_self]; rfl), Dec.ch_setCh_self, Dec.setCh_setCh_self]
  rfl

/-- From the start of a frame, the bits of the sync word lock the channel that gets them, and the sync byte is emitted. -/
theorem Dec.receiving_start (i : Chan) {u : Dec} (h : u.FrameStart) :
    ((groupBits 8 0x7E).foldl (fun d b => channelBit i b d) u).Receiving i 0
      ⟨0x00, 0, u.out ++ [⟨0x7E, u.emittedAny⟩]⟩ := by
  obtain ⟨-, -, ha, hb, hf⟩ := h
  have hu : u.setCh i ⟨0, 0, 0, 0, false⟩ = u := by
    have : u.ch i = ⟨0, 0, 0, 0, false⟩ := by cases i; exacts [ha, hb]
    rw [← this, Dec.setCh_ch_self]
  have h7 : [false, true, true, true, true, true, true].foldl (fun d b => channelBit i b d) u =
      u.setCh i ⟨0xFC, 6, 0, 0, false⟩ := by
    rw [← hu]
    simp only [List.foldl_cons, List.foldl_nil]
    iterate 7 rw [channelBit_searching _ _ _ _ _ (by decide) (by decide)]
    rw [Dec.setCh_setCh_self]
    rfl
  rw [show groupBits 8 0x7E = [false, true, true, true, true, true, true] ++ [false] from rfl, List.foldl_append, h7]
  simp only [List.foldl_cons, List.foldl_nil]
  rw [channelBit_match (by rw [Dec.ch_setCh_self]; decide) (by rw [Dec.ch_setCh_self]; decide)]
  have hw : showsRun (shiftWindow false 0xFC) (nextRun false 6) := by decide
  exact ⟨by simp, by simpa using hw, by simp [nextRun], by decide, rfl, by simp, by simp, by simp [hf, Config.syncWord]⟩

/-- The eight bits of a byte, lowest-order first, are received as that byte. -/
theorem collect_byte (v : Byte) (out : List DecToken) :
    (groupBits 8 v).foldl Received.collect ⟨0x00, 0, out⟩ = ⟨0x00, 0, out ++ [⟨v, false⟩]⟩ := by
  have key : ∀ b0 b1 b2 b3 b4 b5 b6 b7 : Bit,
      [b0, b1, b2, b3, b4, b5, b6, b7].foldl Received.collect ⟨0x00, 0, out⟩ =
        ⟨0x00, 0, out ++ [⟨insertDataBit b7 7 (insertDataBit b6 6 (insertDataBit b5 5 (insertDataBit b4 4
          (insertDataBit b3 3 (insertDataBit b2 2 (insertDataBit b1 1 (insertDataBit b0 0 0x00))))))), false⟩]⟩ := by
    intros; rfl
  have hv : ∀ v : Byte, insertDataBit (v.getLsbD 7) 7 (insertDataBit (v.getLsbD 6) 6 (insertDataBit (v.getLsbD 5) 5
      (insertDataBit (v.getLsbD 4) 4 (insertDataBit (v.getLsbD 3) 3 (insertDataBit (v.getLsbD 2) 2
      (insertDataBit (v.getLsbD 1) 1 (insertDataBit (v.getLsbD 0) 0 0x00))))))) = v := by decide
  have := key (v.getLsbD 0) (v.getLsbD 1) (v.getLsbD 2) (v.getLsbD 3) (v.getLsbD 4) (v.getLsbD 5)
    (v.getLsbD 6) (v.getLsbD 7)
  rw [hv] at this
  exact this

/-- Whole bytes are received one by one. -/
theorem collect_bytes (bytes : List Byte) (out : List DecToken) :
    (bytes.flatMap (groupBits 8)).foldl Received.collect ⟨0x00, 0, out⟩ =
      ⟨0x00, 0, out ++ bytes.map fun v => ⟨v, false⟩⟩ := by
  induction bytes generalizing out with
  | nil => simp
  | cons v vs ih => rw [List.flatMap_cons, List.foldl_append, collect_byte, ih]; simp

/-- Fewer bits than a byte needs emit nothing. -/
theorem collect_tail (ws : List Bit) (r : Received) (h : r.cnt.toNat + ws.length < 8) :
    (ws.foldl Received.collect r).out = r.out := by
  induction ws generalizing r with
  | nil => rfl
  | cons w ws ih =>
    rw [List.length_cons] at h
    have hc : ¬ r.cnt.toNat = 7 := by omega
    have hn : (r.cnt + 1).toNat = r.cnt.toNat + 1 := by rw [BitVec.toNat_add]; simp; omega
    rw [List.foldl_cons, ih]
    · simp [Received.collect, hc]
    · simp only [Received.collect, hc, if_false, hn]; omega

end Sys2Proof.Machine
end

