-- ==== Sys2Proof/Tests/Slice0.lean ====
section
/-! SUPPORT. Tests. Expected results are the spec's own (spec/30_encoding.md for the words, spec/95_test_vectors.md for
the effects, each vector named); then a concrete state and operands for the hypotheses of each statement. -/

namespace Sys2Proof.Tests

open Sys2Proof.Machine

/-! ### Helpers -/

/-- The next state of an outcome, if it is one. -/
def nextOf : Host.Outcome State Fault Refusal → Option State
  | .next t => some t
  | .fault _ => none
  | .refused _ => none

/-- Some fact of the next state, false where there is none. -/
def after (o : Host.Outcome State Fault Refusal) (f : State → Bool) : Bool := (nextOf o).any f

/-- The machine with Channel B in state `c` and `prev` the last chip, Channel B being next. -/
def withB (c : Channel) (p : Chip) : State :=
  { State.reset with dec := { Dec.reset with chB := c, prev := some p, sel := .b } }

/-- The machine with one channel in state `c`. -/
def withCh (i : Chan) (c : Channel) : State := { State.reset with dec := Dec.reset.setCh i c }

/-- The machine with encoder registers `eacc ecnt ones sbits` and trigger `p`. -/
def withEnc (p : StuffTrigger) (eacc : BitVec 8) (ecnt ones : BitVec 3) (sbits : BitVec 4) : State :=
  { State.reset with cfg := ⟨p⟩, enc := ⟨eacc, ecnt, ones, sbits, []⟩ }

/-- Chips as encoder tokens. -/
def chips (cs : List Nat) : List EncToken := cs.map fun c => .chip (c == 1)

/-- The encoder unit with registers `eacc ecnt ones sbits` and these tokens emitted. -/
def encIs (s : State) (eacc : BitVec 8) (ecnt ones : BitVec 3) (sbits : BitVec 4) (out : List EncToken) : Bool :=
  s.enc == ⟨eacc, ecnt, ones, sbits, out⟩

/-- The decoder's state at the end of vector E2. -/
def syncedDec : Dec :=
  { prev := some true, sel := .a, chA := clearedChannel, chB := ⟨0x7E, 0, 0x00, 0, true⟩,
    emittedAny := true, frameOut := true, out := [⟨0x7E, false⟩] }

/-- The machine at the end of vector E2. -/
def synced : State := { State.reset with dec := syncedDec }

/-! ### Well-formed operations: the characters of the other classes are no noise (R48, R83, R112) -/

theorem test_wf_decNoise_zero : (Instr.decNoise 0x30).wf = false := by decide
theorem test_wf_decNoise_one : (Instr.decNoise 0x31).wf = false := by decide
theorem test_wf_decNoise_bar : (Instr.decNoise 0x7C).wf = false := by decide
theorem test_wf_decNoise_lineFeed : (Instr.decNoise 0x0A).wf = false := by decide
theorem test_wf_encNoise_refused :
    [0x30, 0x31, 0x7C, 0x0A].all (fun c : Byte => !(Instr.encNoise c).wf) = true := by decide
theorem test_wf_noise_accepted :
    [0x78, 0x0D, 0x00, 0xFF].all (fun c : Byte => (Instr.decNoise c).wf && (Instr.encNoise c).wf) = true := by decide

/-! ### Decoding: each word written out bit by bit, `end` first, then `char` (R47, R48, R49, R50, R51, R60, R61) -/

theorem test_decode_decChip0 : decode (.dec 0b0_0011_0000) = .decChip0 := by decide
theorem test_decode_decChip1 : decode (.dec 0b0_0011_0001) = .decChip1 := by decide
theorem test_decode_decDelimBar : decode (.dec 0b0_0111_1100) = .decDelimBar := by decide
theorem test_decode_decDelimNl : decode (.dec 0b0_0000_1010) = .decDelimNl := by decide
theorem test_decode_decNoise : decode (.dec 0b0_0111_1000) = .decNoise 0x78 := by decide
theorem test_decode_decNoise_carriageReturn : decode (.dec 0b0_0000_1101) = .decNoise 0x0D := by decide
theorem test_decode_decEnd : decode (.dec 0b1_0000_0000) = .decEnd 0x00 := by decide
theorem test_decode_decEnd_ignoresChar : decode (.dec 0b1_0011_0001) = .decEnd 0x31 := by decide
theorem test_decode_encBit0 : decode (.enc 0b0_0011_0000) = .encBit0 := by decide
theorem test_decode_encBit1 : decode (.enc 0b0_0011_0001) = .encBit1 := by decide
theorem test_decode_encDelimBar : decode (.enc 0b0_0111_1100) = .encDelimBar := by decide
theorem test_decode_encDelimNl : decode (.enc 0b0_0000_1010) = .encDelimNl := by decide
theorem test_decode_encNoise : decode (.enc 0b0_0111_1000) = .encNoise 0x78 := by decide
theorem test_decode_encEnd : decode (.enc 0b1_0111_1100) = .encEnd 0x7C := by decide
theorem test_decode_codec :
    decode (.codec 0b0) = .codecEnc0 ∧ decode (.codec 0b1) = .codecEnc1 := by decide
theorem test_decode_sym :
    decode (.sym .a 0b01) = .sym01 .a ∧ decode (.sym .b 0b10) = .sym10 .b ∧
    decode (.sym .a 0b00) = .sym00 .a ∧ decode (.sym .b 0b11) = .sym11 .b := by decide

/-- The words that end a frame in the encoder unit (R48). -/
theorem test_encFrameEnd :
    encFrameEnd none = .word (.enc 0b1_0000_0000) ∧ encFrameEnd (some .bar) = .word (.enc 0b0_0111_1100) ∧
    encFrameEnd (some .nl) = .word (.enc 0b0_0000_1010) := by decide

/-- Bytes that are no word are rejected by name: too few, or a bit above bit 8. -/
theorem test_decodeBytes_rejects :
    (match decodeBytes .dec [0x30] with | .error e => e == .truncated | .ok _ => false) = true ∧
    (match decodeBytes .dec [0x30, 0x02] with | .error e => e == .bitsAboveWord | .ok _ => false) = true := by decide

/-- The encoder's words, from R49 to R51. -/
theorem test_encode :
    encode .decChip1 = .dec 0x031 ∧ encode .encDelimNl = .enc 0x00A ∧ encode (.encEnd 0x00) = .enc 0x100 ∧
    encode .codecEnc1 = .codec 1 ∧ encode (.sym10 .b) = .sym .b 0b10 := by decide

/-- The next step runs the table word that is placed. -/
theorem test_withFetchWord :
    nextOf (step (State.reset.withFetchWord 16 0x031)) =
      some { State.reset with dec := { Dec.reset with prev := some true, sel := .b } } := by decide

/-! ### Symbol codec -/

/-- V-S1. -/
theorem test_codecEnc0 : after (exec .codecEnc0 State.reset) (fun t => encIs t 0x00 0 0 0 (chips [0, 1])) = true := by
  decide
/-- V-S2. -/
theorem test_codecEnc1 : after (exec .codecEnc1 State.reset) (fun t => encIs t 0x00 0 0 0 (chips [1, 0])) = true := by
  decide

/-! ### Phase channel -/

/-- V-C9: the matching channel deactivates the other, which keeps its window and run. -/
theorem test_sym01_match :
    after (exec (.sym01 .a) { State.reset with
      dec := { Dec.reset with chA := ⟨0xFC, 6, 0x00, 0, false⟩, chB := ⟨0xC1, 2, 0x03, 2, true⟩ } })
      (fun t => t.dec.chA == ⟨0x7E, 0, 0x00, 0, true⟩ && t.dec.chB == ⟨0xC1, 2, 0x00, 0, false⟩ &&
        t.dec.out == [⟨0x7E, false⟩]) = true := by decide
/-- V-C3: a stuffed zero in Searching. -/
theorem test_sym01_stuffed : after (exec (.sym01 .b) (withCh .b ⟨0xF8, 5, 0x00, 0, false⟩))
    (fun t => t.dec.chB == ⟨0x7C, 0, 0x00, 0, false⟩ && t.dec.out == []) = true := by decide
/-- V-C5: the eighth data bit. -/
theorem test_sym10_byte : after (exec (.sym10 .a) (withCh .a ⟨0xC0, 2, 0x7F, 7, true⟩))
    (fun t => t.dec.chA == ⟨0xE0, 3, 0x00, 0, true⟩ && t.dec.out.map DecToken.byte == [0xFF]) = true := by decide
/-- V-C2: IllegalRun on the seventh one. -/
theorem test_sym10_illegalRun : after (exec (.sym10 .b) (withCh .b ⟨0xFC, 6, 0x00, 0, false⟩))
    (fun t => t.dec.chB == clearedChannel && t.dec.out == []) = true := by decide
/-- V-C7: an illegal symbol ends the lock. -/
theorem test_sym00 : after (exec (.sym00 .a) (withCh .a ⟨0xAF, 1, 0x05, 3, true⟩))
    (fun t => t.dec.chA == clearedChannel && t.dec.out == []) = true := by decide
/-- R87 on the state of V-C7. -/
theorem test_sym11 : after (exec (.sym11 .b) (withCh .b ⟨0xAF, 1, 0x05, 3, true⟩))
    (fun t => t.dec.chB == clearedChannel && t.dec.out == []) = true := by decide

/-! ### Decoder unit -/

/-- V-C5 by chips: `10` on Channel B. -/
theorem test_decChip0_byte : after (exec .decChip0 (withB ⟨0xC0, 2, 0x7F, 7, true⟩ true))
    (fun t => t.dec.chB == ⟨0xE0, 3, 0x00, 0, true⟩ && t.dec.prev == some false && t.dec.sel == .a &&
      t.dec.out.map DecToken.byte == [0xFF]) = true := by decide
/-- P3, word 34: `00` on the locked Channel B. -/
theorem test_decChip0_illegal : after (exec .decChip0 (withB ⟨0xEE, 3, 0x00, 0, true⟩ false))
    (fun t => t.dec.chA == clearedChannel && t.dec.chB == clearedChannel && t.dec.out == []) = true := by decide
/-- E2, word 16. -/
theorem test_decChip1_sync : after (exec .decChip1 (withB ⟨0xFC, 6, 0x00, 0, false⟩ false))
    (fun t => t.dec == syncedDec) = true := by decide
/-- V-C4 by chips: the stuffed `01` is not appended. -/
theorem test_decChip1_stuffed : after (exec .decChip1 (withB ⟨0xFA, 5, 0x1F, 5, true⟩ false))
    (fun t => t.dec.chB == ⟨0x7D, 0, 0x1F, 5, true⟩ && t.dec.out == []) = true := by decide
/-- V-D5, word 17. -/
theorem test_decDelimBar : after (exec .decDelimBar synced)
    (fun t => t.dec == { Dec.reset with emittedAny := true, out := [⟨0x7E, false⟩] }) = true := by decide
/-- V-D14. -/
theorem test_decDelimNl : after (exec .decDelimNl synced)
    (fun t => t.dec.prev == none && t.dec.sel == .a && t.dec.chB == clearedChannel && t.dec.emittedAny &&
      !t.dec.frameOut) = true := by decide
/-- E3: noise between two chips. -/
theorem test_decNoise : nextOf (exec (.decNoise 0x78) synced) = some synced := by decide
/-- E2 and `END`: every register at its reset value. -/
theorem test_decEnd : after (exec (.decEnd 0x00) synced)
    (fun t => t.dec == { Dec.reset with out := [⟨0x7E, false⟩] }) = true := by decide

/-! ### Encoder unit -/

/-- P1, word 8. -/
theorem test_encBit0_group : after (exec .encBit0 (withEnc .eq 0x3F 7 0 0))
    (fun t => encIs t 0x00 0 0 8 (chips [0, 1, 1, 0, 1, 0, 1, 0, 1, 0, 1, 0, 1, 0, 0, 1])) = true := by decide
/-- P1, word 20: the partial group `101` before it. -/
theorem test_encBit0_joins : after (exec .encBit0 (withEnc .eq 0x05 3 3 8))
    (fun t => encIs t 0x0A 4 3 8 []) = true := by decide
/-- P1, word 16. -/
theorem test_encBit1_stuffed : after (exec .encBit1 (withEnc .eq 0x7F 7 0 8))
    (fun t => encIs t 0x00 0 3 8 (chips [1, 0, 1, 0, 1, 0, 1, 0, 1, 0, 0, 1, 1, 0, 1, 0, 1, 0])) = true := by decide
/-- V-E9, word 16: trigger `GE`, a run that already counts 7. -/
theorem test_encBit1_trigger : after (exec .encBit1 (withEnc .ge 0x7F 7 7 8))
    (fun t => t.enc.out == chips [1, 0, 0, 1, 1, 0, 1, 0, 1, 0, 1, 0, 1, 0, 0, 1, 1, 0, 1, 0]) = true := by decide
/-- P1, word 21. -/
theorem test_encDelimBar : after (exec .encDelimBar (withEnc .eq 0x0A 4 3 8))
    (fun t => encIs t 0x00 0 0 0 (chips [0, 1, 1, 0, 0, 1, 1, 0] ++ [.delim .bar])) = true := by decide
/-- V-E16: an empty frame. -/
theorem test_encDelimBar_empty : after (exec .encDelimBar State.reset)
    (fun t => encIs t 0x00 0 0 0 [.delim .bar]) = true := by decide
/-- V-E15, word 2. -/
theorem test_encDelimNl : after (exec .encDelimNl (withEnc .eq 0x01 1 0 0))
    (fun t => encIs t 0x00 0 0 0 (chips [1, 0] ++ [.delim .nl])) = true := by decide
/-- V-E17: noise inside a group. -/
theorem test_encNoise : nextOf (exec (.encNoise 0x78) (withEnc .eq 0x07 4 0 0)) = some (withEnc .eq 0x07 4 0 0) := by
  decide
/-- V-E13, word 4. -/
theorem test_encEnd : after (exec (.encEnd 0x00) (withEnc .eq 0x06 3 0 0))
    (fun t => encIs t 0x00 0 0 0 (chips [0, 1, 1, 0, 1, 0])) = true := by decide

/-- R131, R132: the reset input flushes nothing. -/
theorem test_rst : nextOf (step { withEnc .eq 0x06 3 0 0 with dec := syncedDec, input := [.rst] }) =
    some { State.reset with dec := { Dec.reset with out := [⟨0x7E, false⟩] } } := by decide

/-- R57 on the output of E2. -/
theorem test_textOfDec : textOfDec [⟨0x7E, false⟩, ⟨0x01, true⟩] = "01111110\n00000001".toList := by decide

/-! ### Witnesses: a state and operands that meet the hypotheses of each statement -/

/-- DecoderOperationOfEveryInputWord, EncoderOperationOfEveryInputWord, NoiseHasNoEffect: a noise character. -/
theorem test_witness_noiseChar : (0x78 : Byte) ≠ 0x30 ∧ (0x78 : Byte) ≠ 0x31 ∧ (0x78 : Byte) ≠ 0x7C ∧
    (0x78 : Byte) ≠ 0x0A := by decide

/-- The same at the characters next to the digits. -/
theorem test_witness_noiseChar_boundary : (0x32 : Byte) ≠ 0x30 ∧ (0x32 : Byte) ≠ 0x31 ∧ (0x32 : Byte) ≠ 0x7C ∧
    (0x32 : Byte) ≠ 0x0A ∧ (0x2F : Byte) ≠ 0x30 ∧ (0x2F : Byte) ≠ 0x31 ∧ (0x2F : Byte) ≠ 0x7C ∧
    (0x2F : Byte) ≠ 0x0A := by decide

/-- NoiseHasNoEffect: a noise word is offered to each unit. -/
theorem test_witness_noiseOffered :
    ({ synced with input := [.word (.dec (0#1 ++ 0x78#8)), .rst] } : State).input =
      .word (.dec (0#1 ++ 0x78#8)) :: [.rst] ∧
    ({ synced with input := [.word (.enc (0#1 ++ 0x78#8))] } : State).input =
      .word (.enc (0#1 ++ 0x78#8)) :: [] := by decide

/-- DecodeOfEncodeIsTheOperation. -/
theorem test_witness_wf : (Instr.decNoise 0x78).wf = true ∧ (Instr.encEnd 0x31).wf = true := by decide

/-- OneRunCountsAndSeventhOneIsIllegal: below six ones, at the boundary, and at six. -/
theorem test_witness_run : ((withCh .a ⟨0xF8, 5, 0x00, 0, false⟩).dec.ch .a).run.toNat < 6 ∧
    ((withCh .b ⟨0xFC, 6, 0x00, 0, false⟩).dec.ch .b).run = 6 := by decide

/-- DecodedBitEntersTheSyncWindow: a one that is not dropped. -/
theorem test_witness_notSix : ((withCh .b ⟨0xF8, 5, 0x00, 0, false⟩).dec.ch .b).run ≠ 6 := by decide

/-- SyncMatchLocksTheChannelAndEmitsTheSyncByte. -/
theorem test_witness_match : windowAfter false ((withCh .a ⟨0xFC, 6, 0x00, 0, false⟩).dec.ch .a).win = 0x7E := by
  decide

/-- StuffedZeroIsNotData, StuffedZeroNeverCompletesAMatch: the states of V-C4 and V-C3. -/
theorem test_witness_stuffed :
    ((withCh .b ⟨0xFA, 5, 0x1F, 5, true⟩).dec.ch .b).Inv ∧ ((withCh .b ⟨0xFA, 5, 0x1F, 5, true⟩).dec.ch .b).run = 5 ∧
    ((withCh .a ⟨0xF8, 5, 0x00, 0, false⟩).dec.ch .a).Inv ∧
    ((withCh .a ⟨0xF8, 5, 0x00, 0, false⟩).dec.ch .a).run = 5 := by decide

/-- StuffedZeroNeverCompletesAMatch, by chips: the state of V-C4 in the channel that is next. -/
theorem test_witness_stuffedChip :
    let s := withB ⟨0xFA, 5, 0x1F, 5, true⟩ false
    (s.dec.ch s.dec.sel).Inv ∧ (s.dec.ch s.dec.sel).run = 5 ∧ s.dec.prev = some false := by decide

/-- DataBitGoesToTheAccumulator, a Searching channel: the state of V-C3. -/
theorem test_witness_data_searching :
    let c := (withCh .a ⟨0xF8, 5, 0x00, 0, false⟩).dec.ch .a
    windowAfter false c.win ≠ 0x7E ∧ ¬ (false = true ∧ c.run = 6) ∧ c.sync = false := by decide

/-- DataBitGoesToTheAccumulator, a data bit before the eighth: one bit below the boundary. -/
theorem test_witness_data_append :
    let c := (withCh .b ⟨0x80, 1, 0x3F, 6, true⟩).dec.ch .b
    windowAfter true c.win ≠ 0x7E ∧ ¬ (true = true ∧ c.run = 6) ∧ c.sync = true ∧ ¬ (true = false ∧ c.run = 5) ∧
      c.cnt.toNat < 7 := by decide

/-- DataBitGoesToTheAccumulator, the eighth data bit: the state of V-C5. -/
theorem test_witness_data_byte :
    let c := (withCh .a ⟨0xC0, 2, 0x7F, 7, true⟩).dec.ch .a
    windowAfter true c.win ≠ 0x7E ∧ ¬ (true = true ∧ c.run = 6) ∧ c.sync = true ∧ ¬ (true = false ∧ c.run = 5) ∧
      c.cnt = 7 := by decide

/-- SevenBitsFromResetCanMatchFewerCannot: a reset channel, and the longest list that cannot match. -/
theorem test_witness_sevenBits : State.reset.dec.ch .b = clearedChannel ∧
    [true, true, true, true, true, true].length < 7 := by decide

/-- ErrorInTheActiveChannelLosesLock: Channel A alone is locked, on six ones; and each illegal symbol. -/
theorem test_witness_lock :
    (withCh .a ⟨0xFC, 6, 0x05, 3, true⟩).dec.SingleActive ∧
    ((withCh .a ⟨0xFC, 6, 0x05, 3, true⟩).dec.ch .a).sync = true ∧
    ((withCh .a ⟨0xFC, 6, 0x05, 3, true⟩).dec.ch .a).run = 6 ∧
    Instr.sym00 .a ∈ [Instr.sym00 .a, Instr.sym11 .a] ∧ Instr.sym11 .a ∈ [Instr.sym00 .a, Instr.sym11 .a] := by decide

/-- A locked Channel B with six ones and a partial byte, in a frame that has emitted (V-D12 before word 32). -/
def rematch : State :=
  { State.reset with
    dec := { prev := some false, sel := .b, chA := clearedChannel, chB := ⟨0xFC, 6, 0x7E, 7, true⟩,
             emittedAny := true, frameOut := true, out := [⟨0x7E, false⟩] } }

/-- RematchStaysInTheFrame. -/
theorem test_witness_rematch : rematch.dec.Inv ∧ (rematch.dec.ch .b).sync = true ∧
    windowAfter false (rematch.dec.ch .b).win = 0x7E := by decide

/-- SymbolOperationsFrame: each of the four operations. -/
theorem test_witness_symbols (i : Chan) : ∀ op ∈ [Instr.sym01 i, .sym10 i, .sym00 i, .sym11 i],
    op ∈ [Instr.sym01 i, .sym10 i, .sym00 i, .sym11 i] := fun _ h => h

/-- ChipIsDeliveredToTheSelectedChannel, IllegalPairDoesNotTouchTheOtherChannel: no previous chip, and each chip. -/
theorem test_witness_prev : State.reset.dec.prev = none ∧
    (withB clearedChannel false).dec.prev = some false ∧ (withB clearedChannel true).dec.prev = some true := by decide

/-- OnlyWholeBytesAreEmitted: a chip step that emits (E2, word 16), and one that emits a data byte (V-C5). -/
theorem test_witness_emits :
    after (exec (if true then .decChip1 else .decChip0) (withB ⟨0xFC, 6, 0x00, 0, false⟩ false))
      (fun t => t.dec.out != (withB ⟨0xFC, 6, 0x00, 0, false⟩ false).dec.out) = true ∧
    after (exec (if false then .decChip1 else .decChip0) (withB ⟨0xC0, 2, 0x7F, 7, true⟩ true))
      (fun t => t.dec.out != (withB ⟨0xC0, 2, 0x7F, 7, true⟩ true).dec.out) = true := by decide

/-- OnlyWholeBytesAreEmitted, DecoderDelimiterResetsTheFrame, ResetValuesAndClasses: the operations named. -/
theorem test_witness_operations :
    Instr.decEnd 0x00 ∈ [Instr.decDelimBar, .decDelimNl, .decNoise 0x00, .decEnd 0x00] ∧
    Instr.decDelimBar ∈ [Instr.decDelimBar, .decDelimNl] ∧ Instr.decDelimNl ∈ [Instr.decDelimBar, .decDelimNl] ∧
    Instr.encDelimNl ∈ [Instr.encDelimBar, .encDelimNl, .encEnd 0x00] := by decide

/-- AtMostOneChannelIsSynchronized: a locked state and a step that moves the lock to Channel A. -/
theorem test_witness_singleActive :
    ({ synced.dec with chA := ⟨0xFC, 6, 0x00, 0, false⟩ } : Dec).SingleActive ∧
    after (exec (.sym01 .a) { synced with dec := { synced.dec with chA := ⟨0xFC, 6, 0x00, 0, false⟩ } })
      (fun t => t.dec.chA.sync && !t.dec.chB.sync) = true := by decide

/-- ResetValuesAndClasses: a chip step from a state that has emitted. -/
theorem test_witness_emittedAny : (∀ x, Instr.decChip1 ≠ .decEnd x) ∧ synced.dec.emittedAny = true ∧
    after (exec .decChip1 synced) (fun t => t.dec.emittedAny) = true := ⟨by simp, by decide, by decide⟩

/-- SearchingAccumulatorIsUnobservable. -/
theorem test_witness_searching : (synced.dec.ch .a).sync = false := by decide

/-- BitCharacterJoinsTheGroup, at the boundary; EighthBitCharacterSendsTheGroup; FirstGroupOfAFrameIsNeverStuffed. -/
theorem test_witness_ecnt : (withEnc .eq 0x3F 6 0 0).enc.ecnt ≠ 7 ∧
    (withEnc .eq 0x7F 7 0 8).enc.ecnt = 7 ∧
    (withEnc .eq 0x3F 7 0 0).enc.ecnt = 7 ∧ (withEnc .eq 0x3F 7 0 0).enc.sbits = 0 := by decide

/-- BitStufferSendsOneBit: a stuffed zero is due, under both triggers; and it is not, one bit before bit 8, one count
below five, and under `EQ` one count above. -/
theorem test_witness_due :
    (true = true ∧ 8 ≤ (withEnc .eq 0 0 4 8).enc.sbits.toNat ∧ min ((withEnc .eq 0 0 4 8).enc.ones.toNat + 1) 7 = 5) ∧
    (true = true ∧ 8 ≤ (withEnc .ge 0 0 7 8).enc.sbits.toNat ∧ 5 ≤ min ((withEnc .ge 0 0 7 8).enc.ones.toNat + 1) 7) ∧
    ¬ 8 ≤ (withEnc .eq 0 0 4 7).enc.sbits.toNat ∧
    ¬ 5 ≤ min ((withEnc .ge 0 0 3 8).enc.ones.toNat + 1) 7 ∧
    ¬ min ((withEnc .eq 0 0 5 8).enc.ones.toNat + 1) 7 = 5 := by decide

/-- RunAfterBitEightIsStuffedAtEachFifthOne: a count of 0, and the boundary count. -/
theorem test_witness_runAfter :
    (withEnc .eq 0 0 0 8).enc.ones.toNat ≤ 4 ∧ 8 ≤ (withEnc .eq 0 0 0 8).enc.sbits.toNat ∧
    (withEnc .eq 0 0 0 8).enc.ones = 0 ∧
    (withEnc .ge 0 0 4 8).enc.ones.toNat ≤ 4 ∧ 8 ≤ (withEnc .ge 0 0 4 8).enc.sbits.toNat := by decide

/-- RunCrossingBitEightDependsOnTheTrigger: at the boundary count, and at the saturated one. -/
theorem test_witness_runCrossing :
    5 ≤ (withEnc .ge 0 0 5 8).enc.ones.toNat ∧ 8 ≤ (withEnc .ge 0 0 5 8).enc.sbits.toNat ∧
    5 ≤ (withEnc .eq 0 0 7 8).enc.ones.toNat ∧ 8 ≤ (withEnc .eq 0 0 7 8).enc.sbits.toNat := by decide

/-- EncoderStepEmitsAtMostTwentyChips, EncoderOperationsFrame, UnitsAreIndependent. -/
theorem test_witness_ports : Instr.encBit1.port = .enc ∧ Instr.codecEnc0.port = .codec ∧ Instr.decChip0.port = .dec ∧
    (Instr.sym11 .b).port = .sym .b := by decide

/-- WrongPhaseChannelNeverLocks, PhaseIndependence, EncodedFrameIsTheReference, RoundTrip: the first frame after reset, and
a later frame of the telegram of V-D14 and of V-E14. -/
theorem test_witness_frameStart : State.reset.dec.FrameStart ∧ State.reset.enc.FrameStart ∧
    ({ Dec.reset with emittedAny := true, out := [⟨0x7E, false⟩] } : Dec).FrameStart ∧
    ({ Enc.reset with out := [.chip true, .delim .bar] } : Enc).FrameStart := by decide

/-- RoundTrip: the longest tail; ByteTextRoundTrip: eight bits. -/
theorem test_witness_lengths : (List.replicate 7 true).length < 8 ∧ (List.replicate 8 false).length = 8 := by decide

/-- ResetInputFromAnyState, StepRunsTheDecodedOperation, WaitingKeepsAllState. -/
theorem test_witness_input :
    ({ synced with input := [.rst] } : State).input = .rst :: [] ∧
    ({ synced with input := [.word (.enc 0x031), .rst] } : State).input = .word (.enc 0x031) :: [.rst] ∧
    synced.input = [] := by decide

/-- EveryStepKeepsTheInvariant: the state of V-D12 before its last chip, and its step. -/
theorem test_witness_invariant : ({ rematch with input := [.word (.dec 0x031)] } : State).Inv ∧
    after (step { rematch with input := [.word (.dec 0x031)] }) (fun t => t.dec.out.length == 2) = true := by decide

end Sys2Proof.Tests
end

section
/-! SUPPORT. The proofs of the encoding statements (spec/30_encoding.md): the input words of both units, the symbols
and the output tokens. -/

namespace Sys2Proof

/-! ### Input words -/

/-- An input word by its fields (R47) is the `end` bit put in front of the character. -/
theorem append_eq_inWord (b : Bool) (c : Byte) : BitVec.ofBool b ++ c = inWord b c := rfl

@[simp] theorem classOf_charZero : classOf 0x030 = .bit0 := classOf_char Config.charZero

@[simp] theorem classOf_charOne : classOf 0x031 = .bit1 := classOf_char Config.charOne

@[simp] theorem classOf_charBar : classOf 0x07C = .delimBar := classOf_char Config.charBar

@[simp] theorem classOf_charLineFeed : classOf 0x00A = .delimNl := classOf_char Config.charLineFeed

/-- "Any other value" of R48's table is a noise character. -/
theorem isNoiseChar_of_ne {c : Byte} (h0 : c ≠ 0x30) (h1 : c ≠ 0x31) (hbar : c ≠ 0x7C) (hnl : c ≠ 0x0A) :
    isNoiseChar c = true := by
  simp only [isNoiseChar, Bool.and_eq_true, bne_iff_ne]
  exact ⟨⟨⟨h0, h1⟩, hbar⟩, hnl⟩

/-- The last two rows of R48's table, with the word as R49 and R50 write it. -/
theorem classOf_noise_append {c : Byte} (h : isNoiseChar c = true) : classOf (0#1 ++ c) = .noise c :=
  (congrArg classOf (append_eq_inWord false c)).trans (classOf_noise h)

@[simp] theorem classOf_end_append (c : Byte) : classOf (1#1 ++ c) = .endToken c :=
  (congrArg classOf (append_eq_inWord true c)).trans (classOf_end c)

/-- Settles O1: each row of R49's table is the decoder's operation of that row's class. -/
theorem decoderOperationOfEveryInputWord : Obligations.DecoderOperationOfEveryInputWord := by
  refine ⟨?bit0, ?bit1, ?delimBar, ?delimNl, fun c h0 h1 hbar hnl => ?noise, fun c => ?endToken⟩
  case noise =>
    have hclass := classOf_noise_append (isNoiseChar_of_ne h0 h1 hbar hnl)
    simp only [decode, decodeDec, hclass]
  all_goals simp only [decode, decodeDec, classOf_charZero, classOf_charOne, classOf_charBar, classOf_charLineFeed,
    classOf_end_append]

/-- Settles O2: each row of R50's table is the encoder's operation of that row's class. -/
theorem encoderOperationOfEveryInputWord : Obligations.EncoderOperationOfEveryInputWord := by
  refine ⟨?bit0, ?bit1, ?delimBar, ?delimNl, fun c h0 h1 hbar hnl => ?noise, fun c => ?endToken⟩
  case noise =>
    have hclass := classOf_noise_append (isNoiseChar_of_ne h0 h1 hbar hnl)
    simp only [decode, decodeEnc, hclass]
  all_goals simp only [decode, decodeEnc, classOf_charZero, classOf_charOne, classOf_charBar, classOf_charLineFeed,
    classOf_end_append]

/-! ### Symbols -/

/-- The operation of each 2-bit symbol value (R51), in the channel that asked. -/
theorem decode_sym (i : Chan) :
    decode (.sym i 0b01) = .sym01 i ∧ decode (.sym i 0b10) = .sym10 i ∧
    decode (.sym i 0b00) = .sym00 i ∧ decode (.sym i 0b11) = .sym11 i :=
  ⟨rfl, rfl, rfl, rfl⟩

/-- Settles O3: the operations of the four values, then the codec's two tables row by row. -/
theorem symbolFormat : Obligations.SymbolFormat :=
  ⟨decode_sym, rfl, rfl, rfl, rfl, rfl, rfl⟩

/-! ### Output tokens -/

namespace Machine

/-- A `Byte` token's 9 bits are laid out as an input word: the separator in the place of `end`, the byte in the place
of `char` (R47, R53). -/
theorem DecToken.outWord_eq_inWord (t : DecToken) : t.outWord = inWord t.sep t.byte := rfl

@[simp] theorem DecToken.outWord_sep (t : DecToken) : t.outWord.getLsbD 8 = t.sep :=
  (congrArg InWord.endBit t.outWord_eq_inWord).trans (inWord_endBit t.sep t.byte)

@[simp] theorem DecToken.outWord_byte (t : DecToken) : t.outWord.setWidth 8 = t.byte :=
  (congrArg InWord.char t.outWord_eq_inWord).trans (inWord_char t.sep t.byte)

end Machine

/-- Settles O45: the four `out_kind` codes by their table, the `Byte` token by the two fields of its word. -/
theorem outputTokenFormats : Obligations.OutputTokenFormats :=
  ⟨rfl, rfl, rfl, rfl, fun t => ⟨t.outWord_sep, t.outWord_byte⟩⟩

end Sys2Proof
end

section
/-! SUPPORT. The proof of the symbol codec's statement (spec/40_symbol_codec.md, section 2): the encode operations. -/

namespace Sys2Proof

namespace Machine

/-- The symbol of a bit (R58): its first chip is the bit, its second the complement; the registers stay. -/
theorem symEncode_eq (b : Bit) (e : Enc) : symEncode b e = { e with out := e.out ++ [.chip b, .chip (!b)] } :=
  congrArg (fun out => { e with out := out }) (symEncode_out b e)

/-- The encode operation of a bit emits its symbol, whichever the bit is. -/
theorem exec_codecEnc (b : Bit) (s : State) :
    exec (if b then .codecEnc1 else .codecEnc0) s =
      .next { s with enc := { s.enc with out := s.enc.out ++ [.chip b, .chip (!b)] } } := by
  rw [← symEncode_eq, exec_eq]
  cases b <;> rfl

end Machine

/-- The codec's 1-bit input is the bit to encode (R60, R61). -/
theorem decode_codec (b : Bit) :
    decode (.codec (BitVec.ofBool b)) = if b then .codecEnc1 else .codecEnc0 := by cases b <;> rfl

/-- Settles O7: the operation of each input, then the symbol of each bit. -/
theorem codecEncodeEmitsTheSymbol : Obligations.CodecEncodeEmitsTheSymbol :=
  ⟨decode_codec false, decode_codec true, fun s => ⟨Machine.exec_codecEnc false s, Machine.exec_codecEnc true s⟩⟩

end Sys2Proof
end

section
/-! SUPPORT. The proofs of the encoder's statements (spec/41_encoder.md): the bit-stuffer, and the end of a frame. -/

namespace Sys2Proof

namespace Machine

/-! ### The bit-stuffer -/

theorem stuffActive_iff (sbits : BitVec 4) : stuffActive sbits = true ↔ 8 ≤ sbits.toNat := decide_eq_true_iff

theorem trigger_eq_iff (ones : BitVec 3) : trigger .eq ones = true ↔ ones.toNat = 5 := decide_eq_true_iff

theorem trigger_ge_iff (ones : BitVec 3) : trigger .ge ones = true ↔ 5 ≤ ones.toNat := decide_eq_true_iff

/-- The stuffing test (R69): a one, with 8 logical bits sent before it and the trigger at its count. -/
theorem stuffDue_iff (p : StuffTrigger) (w : Bit) (sbits : BitVec 4) (ones : BitVec 3) :
    stuffDue p w sbits ones = true ↔ w = true ∧ 8 ≤ sbits.toNat ∧ trigger p ones = true := by
  rw [stuffDue, Bool.and_eq_true, Bool.and_eq_true, stuffActive_iff, and_assoc]

theorem encodeBit_sbits_toNat (p : StuffTrigger) (w : Bit) (e : Enc) :
    (encodeBit p w e).sbits.toNat = min (e.sbits.toNat + 1) 8 := by
  rw [encodeBit_sbits, nextSbits_toNat]

/-! ### The end of a frame -/

/-- The partial group leaves in wire order, stuffed as on counters that never saturate. -/
theorem flushGroup_out (p : StuffTrigger) (e : Enc) :
    (flushGroup p e).out =
      e.out ++ (wideChips p (bufferBits e.ecnt.toNat e.eacc) e.ones.toNat e.sbits.toNat).map .chip := by
  rw [flushGroup_eq, bufferBits_eq_groupBits]
  exact encodeBits_out p _ e

/-- A frame's end from any state: the partial group, then the delimiter's token if there is one, and the registers at
their reset values (R81, R82, R84). -/
theorem endOfFrameEnc_eq (p : StuffTrigger) (ending : Option DelimKind) (e : Enc) :
    endOfFrameEnc p ending e =
      { Enc.reset with
        out := e.out ++ (wideChips p (bufferBits e.ecnt.toNat e.eacc) e.ones.toNat e.sbits.toNat).map .chip ++
          ending.toList.map .delim } := by
  rw [← flushGroup_out]
  cases ending with
  | none =>
    rw [Option.toList_none, List.map_nil, List.append_nil]
    exact frameResetEnc_eq_reset _
  | some k => exact frameResetEnc_eq_reset _

theorem exec_encDelimBar (s : State) :
    exec .encDelimBar s = .next { s with enc := endOfFrameEnc s.cfg.stuffTrigger (some .bar) s.enc } := exec_eq _ s

theorem exec_encDelimNl (s : State) :
    exec .encDelimNl s = .next { s with enc := endOfFrameEnc s.cfg.stuffTrigger (some .nl) s.enc } := exec_eq _ s

theorem exec_encEnd (c : Byte) (s : State) :
    exec (.encEnd c) s = .next { s with enc := endOfFrameEnc s.cfg.stuffTrigger none s.enc } := exec_eq _ s

end Machine

open Machine

/-- Settles O34: the two cases of the stuffing test, which reads the saturated one-count. -/
theorem bitStufferSendsOneBit : Obligations.BitStufferSendsOneBit := by
  intro p w e count due
  have hcount : (nextOnes w e.ones).toNat = count := nextOnes_toNat w e.ones
  have hdue : stuffDue p w e.sbits (nextOnes w e.ones) = true ↔ due := by
    rw [stuffDue_iff]
    cases p with
    | eq => rw [trigger_eq_iff, hcount]
    | ge => rw [trigger_ge_iff, hcount]
  refine ⟨encodeBit_eacc p w e, encodeBit_ecnt p w e, encodeBit_sbits_toNat p w e, fun h => ?stuffed, fun h => ?plain⟩
  case stuffed =>
    rw [encodeBit_stuffed (hdue.mpr h)]
    exact ⟨rfl, rfl⟩
  case plain =>
    rw [encodeBit_plain (Bool.eq_false_iff.mpr (mt hdue.mp h))]
    exact ⟨hcount, rfl⟩

/-- Settles O35: both delimiters are the frame's end with a token of their kind. -/
theorem encoderDelimiterFlushesThenEndsTheFrame : Obligations.EncoderDelimiterFlushesThenEndsTheFrame := by
  intro k s op chips
  obtain ⟨-, -, hbar, hnl, -, -⟩ := encoderOperationOfEveryInputWord
  have hend := endOfFrameEnc_eq s.cfg.stuffTrigger (some k) s.enc
  cases k with
  | bar => exact ⟨hbar, by rw [exec_encDelimBar, hend]; rfl⟩
  | nl => exact ⟨hnl, by rw [exec_encDelimNl, hend]; rfl⟩

/-- Settles O36: the telegram's end is the frame's end without a token. -/
theorem encoderEndFlushesTheTelegram : Obligations.EncoderEndFlushesTheTelegram := by
  intro c s chips
  obtain ⟨-, -, -, -, -, hword⟩ := encoderOperationOfEveryInputWord
  refine ⟨hword c, ?_⟩
  rw [exec_encEnd, endOfFrameEnc_eq, Option.toList_none, List.map_nil, List.append_nil]
  rfl

end Sys2Proof
end

section
/-! SUPPORT. The proofs of the phase channel's statements (spec/42_phase_channel.md): the channel's error, the one-run
counter, the sync window, the sync match and the data accumulator. -/

namespace Sys2Proof

namespace Machine

/-! ### A symbol's operation -/

/-- An illegal symbol resets the channel that asked (R86, R87). -/
theorem exec_illegalSymbol (i : Chan) (s : State) : ∀ op ∈ [Instr.sym00 i, .sym11 i],
    exec op s = .next { s with dec := s.dec.setCh i clearedChannel } := by
  intro op hop
  obtain rfl | rfl := List.mem_pair.mp hop
  · exact exec_eq _ s
  · exact exec_eq _ s

theorem exec_sym01 (i : Chan) (s : State) :
    exec (.sym01 i) s = .next { s with dec := channelBit i false s.dec } := exec_legalSymbol i false s

theorem exec_sym10 (i : Chan) (s : State) :
    exec (.sym10 i) s = .next { s with dec := channelBit i true s.dec } := exec_legalSymbol i true s

/-! ### A decoded bit in the channel's registers -/

/-- The sync-match test reads the window after the bit (R92). -/
theorem isSyncWord_shift_iff (b : Bit) (win : BitVec 8) :
    isSyncWord (shiftWindow b win) = true ↔ windowAfter b win = 0x7E := by
  rw [shiftWindow_eq_windowAfter, isSyncWord_iff]

/-- The window and the one-run of the legal bit, in the spec's own expressions (R89, R91). -/
theorem Channel.shifted_eq_windowAfter (b : Bit) (c : Channel) :
    c.shifted b = { c with win := windowAfter b c.win, run := if b then c.run + 1 else 0 } := by
  rw [← shiftWindow_eq_windowAfter]
  rfl

/-- Match, append or neither: a legal bit counts in the one-run and enters the window (R89, R91). -/
theorem channelBit_run_win {i : Chan} {b : Bit} {d : Dec} (h : isIllegalRun b (d.ch i).run = false) :
    ((channelBit i b d).ch i).run = nextRun b (d.ch i).run ∧
    ((channelBit i b d).ch i).win = windowAfter b (d.ch i).win := by
  rw [← shiftWindow_eq_windowAfter]
  rcases channelBit_cases i b d with ⟨hi, -⟩ | ⟨-, -, e⟩ | ⟨-, -, -, e⟩ | ⟨-, -, -, -, e⟩ | ⟨-, -, -, -, e⟩
  case inl => exact absurd (hi.symm.trans h) (by decide)
  all_goals simp only [e, emitByte_ch, Dec.ch_setCh_self, Channel.shifted_eq, and_self]

/-- A one that is not the seventh is legal (R89). -/
theorem isIllegalRun_one_eq_false {run : BitVec 3} (h : run ≠ 6) : isIllegalRun true run = false :=
  Bool.eq_false_iff.mpr fun hi => h ((isIllegalRun_iff _ _).mp hi).2

theorem nextRun_one_toNat {run : BitVec 3} (h : run.toNat < 6) : (nextRun true run).toNat = run.toNat + 1 := by
  have hfits : run.toNat + 1 < 2 ^ 3 := by omega
  exact BitVec.toNat_add_of_lt hfits

/-- A byte's token after a write to a channel, register by register (R104). -/
theorem emitByte_setCh_eq (v : Byte) (d : Dec) (i : Chan) (c : Channel) :
    emitByte v (d.setCh i c) = { d.setCh i c with
      out := d.out ++ [⟨v, d.emittedAny && !d.frameOut⟩]
      emittedAny := true
      frameOut := true } := by cases i <;> rfl

end Machine

open Machine

/-- Settles O9: both illegal symbols, in each channel. -/
theorem illegalSymbolResetsItsChannelOnly : Obligations.IllegalSymbolResetsItsChannelOnly := by
  intro s
  have reset (i : Chan) := And.intro (exec_illegalSymbol i s (.sym00 i) (by simp))
    (exec_illegalSymbol i s (.sym11 i) (by simp))
  exact ⟨reset .a, reset .b⟩

/-- Settles O10: a zero is never illegal, a one is legal below a run of six and an IllegalRun at six. -/
theorem oneRunCountsAndSeventhOneIsIllegal : Obligations.OneRunCountsAndSeventhOneIsIllegal := by
  intro i s
  refine ⟨⟨_, exec_sym01 i s, (channelBit_run_win rfl).1⟩, fun hlt => ⟨_, exec_sym10 i s, ?counts⟩, fun h6 => ?seventh⟩
  case counts =>
    have hne : (s.dec.ch i).run ≠ 6 := fun h6 => by simp [h6] at hlt
    rw [(channelBit_run_win (isIllegalRun_one_eq_false hne)).1, nextRun_one_toNat hlt]
  case seventh =>
    rw [exec_sym10, channelBit_illegalRun ((isIllegalRun_iff _ _).mpr ⟨rfl, h6⟩)]
    rfl

/-- Settles O11: the bit is legal in both clauses. -/
theorem decodedBitEntersTheSyncWindow : Obligations.DecodedBitEntersTheSyncWindow := fun i s =>
  ⟨⟨_, exec_sym01 i s, (channelBit_run_win rfl).2⟩,
    fun hne => ⟨_, exec_sym10 i s, (channelBit_run_win (isIllegalRun_one_eq_false hne)).2⟩⟩

/-- Settles O12: a one leaves bit 7 of the window set, and a zero that completes the word is the match of
`channelBit_match`. -/
theorem syncMatchLocksTheChannelAndEmitsTheSyncByte :
    Obligations.SyncMatchLocksTheChannelAndEmitsTheSyncByte := by
  refine ⟨fun win hm => ?one, fun i s hm => ⟨_, exec_sym01 i s, ?zero⟩⟩
  case one => exact absurd ((isSyncWord_shift_iff true win).mpr hm) (by simp)
  case zero =>
    rw [channelBit_match rfl ((isSyncWord_shift_iff false _).mpr hm), Channel.shifted_eq_windowAfter, hm]
    simp [Config.syncWord]

/-- Settles O14: the bit is legal and completes no match; what is left is whether it is appended, and whether it is
the eighth. -/
theorem dataBitGoesToTheAccumulator : Obligations.DataBitGoesToTheAccumulator := by
  intro i b s c win run acc op hwin hrun
  have hi : isIllegalRun b c.run = false := Bool.eq_false_iff.mpr (mt (isIllegalRun_iff b c.run).mp hrun)
  have hm : isSyncWord (shiftWindow b c.win) = false :=
    Bool.eq_false_iff.mpr (mt (isSyncWord_shift_iff b c.win).mp hwin)
  have data (hsync : c.sync = true) (hstuffed : ¬(b = false ∧ c.run = 5)) : (c.sync && !isStuffed b c.run) = true := by
    rw [hsync, Bool.eq_false_iff.mpr (mt (isStuffed_iff b c.run).mp hstuffed)]
    rfl
  have hop : exec op s = .next { s with dec := channelBit i b s.dec } := exec_legalSymbol i b s
  have hshift : c.shifted b = { c with win := win, run := run } := c.shifted_eq_windowAfter b
  rw [hop]
  refine ⟨fun hsync => ?searching, fun hsync hstuffed hlt => ?append, fun hsync hstuffed h7 => ?full⟩
  case searching => rw [channelBit_quiet hi hm (by rw [hsync]; rfl), hshift]
  case append => rw [channelBit_append hi hm (data hsync hstuffed) (Nat.ne_of_lt hlt), hshift]; rfl
  case full =>
    rw [channelBit_append_full hi hm (data hsync hstuffed) (congrArg BitVec.toNat h7), hshift, emitByte_setCh_eq]
    rfl

end Sys2Proof
end

section
/-! SUPPORT. The proofs of the decoder unit's statements (spec/43_decoder.md): the chip interleaver, the frame and
telegram resets, and noise. -/

namespace Sys2Proof

theorem Chan.other_eq_ite (i : Chan) : i.other = if i = .a then .b else .a := by cases i <;> rfl

namespace Machine

/-! ### A chip's operation -/

/-- The operation of the symbol with chips `p` and `c`, as the 2-bit value names it (R51), is the channel's step. -/
theorem exec_symbol (i : Chan) (p c : Chip) (s : State) :
    exec (decode (.sym i (BitVec.ofBool p ++ BitVec.ofBool c))) s =
      .next { s with dec := channelStep i p c s.dec } := by
  cases p <;> cases c <;> rfl

/-- The first chip of a frame forms no symbol (R101). -/
theorem exec_chip_first (c : Chip) {s : State} (h : s.dec.prev = none) :
    exec (if c then .decChip1 else .decChip0) s =
      .next { s with dec := { s.dec with prev := some c, sel := if s.dec.sel = .a then .b else .a } } := by
  rw [exec_chip, deliverChip_first c h, Chan.other_eq_ite]

/-- A later chip is the operation of its symbol, with `prev` and `sel` written after it (R100). -/
theorem exec_chip_next {p : Chip} (c : Chip) {s : State} (h : s.dec.prev = some p) :
    ∃ t, exec (decode (.sym s.dec.sel (BitVec.ofBool p ++ BitVec.ofBool c))) s = .next t ∧
      exec (if c then .decChip1 else .decChip0) s =
        .next { t with dec := { t.dec with prev := some c, sel := s.dec.sel.other } } :=
  ⟨_, exec_symbol s.dec.sel p c s, by rw [exec_chip, deliverChip_next c h]⟩

/-! ### Resets and noise -/

/-- A delimiter of either kind is the frame reset (R110, R111). -/
theorem exec_decDelim (s : State) : ∀ op ∈ [Instr.decDelimBar, .decDelimNl],
    exec op s = .next { s with dec := frameResetDec s.dec } := by
  intro op hop
  obtain rfl | rfl := List.mem_pair.mp hop
  · exact exec_eq _ s
  · exact exec_eq _ s

theorem exec_decEnd (c : Byte) (s : State) :
    exec (.decEnd c) s = .next { s with dec := { Dec.reset with out := s.dec.out } } := by
  rw [← telegramResetDec_eq_reset]
  exact exec_eq _ s

theorem exec_decNoise (c : Byte) (s : State) : exec (.decNoise c) s = .next s := exec_eq _ s

theorem exec_encNoise (c : Byte) (s : State) : exec (.encNoise c) s = .next s := exec_eq _ s

end Machine

open Machine

/-- Settles O20: the first chip of a frame, then both chips after each previous one. -/
theorem chipIsDeliveredToTheSelectedChannel : Obligations.ChipIsDeliveredToTheSelectedChannel := fun _ =>
  ⟨fun h => ⟨exec_chip_first false h, exec_chip_first true h⟩,
    fun h => ⟨exec_chip_next false h, exec_chip_next true h⟩,
    fun h => ⟨exec_chip_next false h, exec_chip_next true h⟩⟩

/-- Settles O23: the words are rows of R49's table, and both operations are the frame reset. -/
theorem decoderDelimiterResetsTheFrame : Obligations.DecoderDelimiterResetsTheFrame := by
  obtain ⟨-, -, hbar, hnl, -, -⟩ := decoderOperationOfEveryInputWord
  exact ⟨hbar, hnl, fun op s hop => exec_decDelim s op hop⟩

/-- Settles O24: a noise word's operation is noise in the unit that takes it, and noise keeps the state. -/
theorem noiseHasNoEffect : Obligations.NoiseHasNoEffect := by
  obtain ⟨-, -, -, -, hdec, -⟩ := decoderOperationOfEveryInputWord
  obtain ⟨-, -, -, -, henc, -⟩ := encoderOperationOfEveryInputWord
  refine ⟨fun c s => ⟨exec_decNoise c s, exec_encNoise c s⟩,
    fun c s rest h0 h1 hbar hnl => ⟨fun hin => ?dec, fun hin => ?enc⟩⟩
  case dec => rw [step_word hin, hdec c h0 h1 hbar hnl, exec_decNoise]
  case enc => rw [step_word hin, henc c h0 h1 hbar hnl, exec_encNoise]

/-- Settles O26: the word is R49's last row, and its operation leaves the reset values. -/
theorem decoderEndResetsTheTelegram : Obligations.DecoderEndResetsTheTelegram := by
  obtain ⟨-, -, -, -, -, hend⟩ := decoderOperationOfEveryInputWord
  exact fun c s => ⟨hend c, exec_decEnd c s⟩

end Sys2Proof
end

section
/-! SUPPORT. The proofs that decoding and encoding are inverse (spec/30_encoding.md, sections 2, 3 and 6), on words and
on bytes, and that a byte is rendered as the text it was packed from (sections 5 and 7). -/

namespace Sys2Proof

/-! ### Decoding an encoded operation -/

/-- The word of a well-formed operation decodes to it: a `NOISE` character is of no other class, and `END` comes before
every other class (R48). -/
theorem decode_encode {i : Instr} (h : i.wf = true) : decode (encode i) = i := by
  cases i with
  | decNoise c => rw [encode, decode, decodeDec, classOf_noise h]
  | encNoise c => rw [encode, decode, decodeEnc, classOf_noise h]
  | decEnd c => rw [encode, decode, decodeDec, classOf_end]
  | encEnd c => rw [encode, decode, decodeEnc, classOf_end]
  | sym01 i => rfl
  | sym10 i => rfl
  | sym00 i => rfl
  | sym11 i => rfl
  | _ => decide

theorem Offer.number_lt_width (o : Offer) : o.number < 2 ^ o.port.width := by
  cases o <;> exact BitVec.isLt _

/-- The bytes of a port hold its whole word (log entry 9). -/
theorem Port.word_fits_bytes (p : Port) : 2 ^ p.width ≤ 256 ^ p.nbytes := by
  cases p with
  | sym i => exact (by decide : 4 ≤ 256)
  | _ => decide

/-- The word of every operation stands whole in its bytes. -/
theorem encodedWord_statement (i : Instr) : Laws.EncodedWord.Statement i :=
  Laws.EncodedWord.statement_of_lt (encode_port i ▸ (encode i).number_lt_width) i.port.word_fits_bytes

/-- From an operation's bytes its word is read back, and what follows them is left. -/
theorem decodeBytes_encodeBytes (i : Instr) (rest : List Byte) :
    decodeBytes i.port (encodeBytes i ++ rest) = .ok (decode (encode i), rest) := by
  obtain ⟨hport, -, hlength, hnumber⟩ := encodedWord_statement i
  have hlong : ¬ (encodeBytes i ++ rest).length < i.port.nbytes := by
    rw [List.length_append, hlength]
    omega
  have hoffer : offerOf i.port (encode i).number = .ok (encode i) := hport ▸ offerOf_number (encode i)
  rw [decodeBytes, if_neg hlong, List.take_left' hlength, List.drop_left' hlength, hnumber, hoffer]

/-- Settles O5: the word decodes to the operation, and the bytes are the word's. -/
theorem decodeOfEncodeIsTheOperation : Obligations.DecodeOfEncodeIsTheOperation := fun i hwf =>
  ⟨decode_encode hwf, fun rest => by rw [decodeBytes_encodeBytes, decode_encode hwf]⟩

/-! ### Encoding a decoded word -/

/-- The class of a word fixes its operation, and the operation encodes the class's word (R48, R49). -/
theorem encode_decodeDec (w : InWord) : encode (decodeDec w) = .dec (classOf w).word := by
  rw [decodeDec]
  cases classOf w <;> rfl

/-- The same in the encoder unit (R48, R50). -/
theorem encode_decodeEnc (w : InWord) : encode (decodeEnc w) = .enc (classOf w).word := by
  rw [decodeEnc]
  cases classOf w <;> rfl

theorem encode_decode (o : Offer) : encode (decode o) = o := by
  cases o with
  | dec w => rw [decode, encode_decodeDec, word_classOf]
  | enc w => rw [decode, encode_decodeEnc, word_classOf]
  | codec b => revert b; decide
  | sym i v => revert v; cases i <;> decide

theorem decode_wf (o : Offer) : (decode o).wf = true := by
  cases o with
  | dec w =>
    rw [decode, decodeDec]
    cases hclass : classOf w with
    | noise c => exact classOf_noise_isNoise hclass
    | _ => rfl
  | enc w =>
    rw [decode, decodeEnc]
    cases hclass : classOf w with
    | noise c => exact classOf_noise_isNoise hclass
    | _ => rfl
  | codec b => revert b; decide
  | sym i v => revert v; cases i <;> decide

/-- Settles O6: the classes of R48 lose nothing of the word, and `NOISE` holds noise characters only. -/
theorem everyWordIsTheWordOfItsOperation : Obligations.EveryWordIsTheWordOfItsOperation := fun o =>
  ⟨decode_wf o, encode_decode o⟩

/-- Settles O4: each table word is read at the port its bit count names. -/
theorem tableWordsDecode : Obligations.TableWordsDecode := by
  unfold Obligations.TableWordsDecode
  decide

/-! ### The text of a byte -/

namespace Machine

/-- Bits packed one after another stand in the buffer latest first, before what it held. -/
theorem groupBits_foldl_append (bs : List Bit) (k : Nat) (v : BitVec 8) (h : k + bs.length ≤ 8) :
    groupBits (k + bs.length) (bs.foldl (fun v t => appendGroupBit t v) v) = bs.reverse ++ groupBits k v := by
  induction bs generalizing k v with
  | nil => rfl
  | cons t ts ih =>
    rw [List.length_cons] at h ⊢
    rw [List.foldl_cons, ← Nat.add_assoc, Nat.add_right_comm, ih (k + 1) _ (by omega),
      groupBits_append t v k (by omega), List.reverse_cons, List.append_assoc, List.singleton_append]

/-- A byte is rendered from its highest-order bit down (R57). -/
theorem textOfByte_eq_groupBits (v : Byte) : textOfByte v = (groupBits 8 v).reverse.map charOfBit := rfl

theorem textOfByte_packed {bs : List Bit} (h : bs.length = 8) :
    textOfByte (bs.foldl (fun v t => appendGroupBit t v) 0x00) = bs.map charOfBit := by
  have hbits := groupBits_foldl_append bs 0 0x00 (by omega)
  rw [Nat.zero_add, h, show groupBits 0 0x00 = [] from rfl, List.append_nil] at hbits
  rw [textOfByte_eq_groupBits, hbits, List.reverse_reverse]

end Machine

/-- Settles O46: the newline is the separator's, and the eight characters are the packed ones. -/
theorem byteTextRoundTrip : Obligations.ByteTextRoundTrip := fun bs sep h => by
  rw [Machine.textOfDec, List.flatMap_singleton, Machine.textOfByte_packed h]

end Sys2Proof
end

section
/-! SUPPORT. The proof that every step keeps the invariant (spec/10_state.md, sections 2 and 3), operation by operation,
and that no operation makes both channels Synchronized (R25). -/

namespace Sys2Proof.Machine

/-! ### What an operation can do to each unit -/

/-- A chip leaves the decoder unit as it is, or runs its symbol, before `prev` and `sel` are written (R100). -/
theorem deliverChip_cases (c : Chip) (d : Dec) :
    (d.prev = none ∧ deliverChip c d = { d with prev := some c, sel := d.sel.other }) ∨
    (∃ p, d.prev = some p ∧
      deliverChip c d = { channelStep d.sel p c d with prev := some c, sel := d.sel.other }) := by
  rcases h : d.prev with _ | p
  · exact .inl ⟨rfl, deliverChip_first c h⟩
  · exact .inr ⟨p, rfl, deliverChip_next c h⟩

/-- What an operation can do to the decoder unit: nothing, a chip, a symbol, the frame reset, or, at `END`, the telegram
reset. -/
theorem decEffect_cases (op : Instr) (d : Dec) :
    decEffect op d = d ∨ (∃ c, decEffect op d = deliverChip c d) ∨
    (∃ i c1 c2, decEffect op d = channelStep i c1 c2 d) ∨ decEffect op d = frameResetDec d ∨
    ((∃ x, op = .decEnd x) ∧ decEffect op d = { Dec.reset with out := d.out }) := by
  cases op with
  | decChip0 => exact .inr (.inl ⟨false, rfl⟩)
  | decChip1 => exact .inr (.inl ⟨true, rfl⟩)
  | decDelimBar | decDelimNl => exact .inr (.inr (.inr (.inl rfl)))
  | decEnd x => exact .inr (.inr (.inr (.inr ⟨⟨x, rfl⟩, telegramResetDec_eq_reset d⟩)))
  | sym01 i => exact .inr (.inr (.inl ⟨i, false, true, rfl⟩))
  | sym10 i => exact .inr (.inr (.inl ⟨i, true, false, rfl⟩))
  | sym00 i => exact .inr (.inr (.inl ⟨i, false, false, rfl⟩))
  | sym11 i => exact .inr (.inr (.inl ⟨i, true, true, rfl⟩))
  | _ => exact .inl rfl

/-- What an operation can do to the encoder unit: nothing, a bit character, the end of a frame, or a symbol of the
codec. -/
theorem encEffect_cases (p : StuffTrigger) (op : Instr) (e : Enc) :
    encEffect p op e = e ∨ (∃ t, encEffect p op e = packBit p t e) ∨
    (∃ ending, encEffect p op e = endOfFrameEnc p ending e) ∨
    (op.port = .codec ∧ ∃ b, encEffect p op e = symEncode b e) := by
  cases op with
  | encBit0 => exact .inr (.inl ⟨false, rfl⟩)
  | encBit1 => exact .inr (.inl ⟨true, rfl⟩)
  | encDelimBar => exact .inr (.inr (.inl ⟨some .bar, rfl⟩))
  | encDelimNl => exact .inr (.inr (.inl ⟨some .nl, rfl⟩))
  | encEnd x => exact .inr (.inr (.inl ⟨none, rfl⟩))
  | codecEnc0 => exact .inr (.inr (.inr ⟨rfl, false, rfl⟩))
  | codecEnc1 => exact .inr (.inr (.inr ⟨rfl, true, rfl⟩))
  | _ => exact .inl rfl

/-! ### At most one Synchronized channel -/

section Dec

variable {d : Dec}

/-- A channel's new value that is not newly Synchronized. -/
theorem Dec.SingleActive.setCh (h : d.SingleActive) {i : Chan} {c : Channel}
    (hsync : c.sync = true → (d.ch i).sync = true) : (d.setCh i c).SingleActive := by
  cases i with
  | a => exact fun ⟨ha, hb⟩ => h ⟨hsync ha, hb⟩
  | b => exact fun ⟨ha, hb⟩ => h ⟨ha, hsync hb⟩

/-- A channel that takes the lock, the other one giving it up. -/
theorem Dec.singleActive_setCh_of_other {i : Chan} (h : (d.ch i.other).sync = false) (c : Channel) :
    (d.setCh i c).SingleActive := by
  cases i with
  | a => exact fun ⟨_, hb⟩ => absurd (h.symm.trans hb) (by decide)
  | b => exact fun ⟨ha, _⟩ => absurd (h.symm.trans ha) (by decide)

theorem Dec.SingleActive.channelBit (h : d.SingleActive) (i : Chan) (b : Bit) : (channelBit i b d).SingleActive := by
  rcases channelBit_cases i b d with ⟨-, e⟩ | ⟨-, -, e⟩ | ⟨-, -, -, e⟩ | ⟨-, -, -, -, e⟩ | ⟨-, -, -, -, e⟩ <;> rw [e]
  case inr.inl =>
    exact Dec.singleActive_setCh_of_other (by rw [Dec.ch_setCh_self]) _
  case inl => exact h.setCh (fun hreset => absurd hreset Bool.false_ne_true)
  all_goals exact h.setCh id

theorem Dec.SingleActive.channelStep (h : d.SingleActive) (i : Chan) (c1 c2 : Chip) :
    (channelStep i c1 c2 d).SingleActive := by
  rcases channelStep_cases i c1 c2 d with ⟨-, e⟩ | ⟨-, e⟩ <;> rw [e]
  · exact h.setCh (fun hreset => absurd hreset Bool.false_ne_true)
  · exact h.channelBit i c1

theorem Dec.SingleActive.deliverChip (h : d.SingleActive) (c : Chip) : (deliverChip c d).SingleActive := by
  rcases deliverChip_cases c d with ⟨-, e⟩ | ⟨p, -, e⟩ <;> rw [e]
  · exact h
  · exact h.channelStep d.sel p c

theorem Dec.SingleActive.decEffect (h : d.SingleActive) (op : Instr) : (decEffect op d).SingleActive := by
  rcases decEffect_cases op d with e | ⟨c, e⟩ | ⟨i, c1, c2, e⟩ | e | ⟨-, e⟩ <;> rw [e]
  · exact h
  · exact h.deliverChip c
  · exact h.channelStep i c1 c2
  · exact fun ⟨ha, _⟩ => Bool.false_ne_true ha
  · exact fun ⟨ha, _⟩ => Bool.false_ne_true ha

/-! ### The decoder unit's invariant -/

/-- A channel's new value that meets its invariant and is not newly Synchronized. -/
theorem Dec.Inv.setCh (h : d.Inv) {i : Chan} {c : Channel} (hc : c.Inv)
    (hsync : c.sync = true → (d.ch i).sync = true) : (d.setCh i c).Inv := by
  obtain ⟨ha, hb, hsingle, hout, hany, hprev⟩ := h
  have hsingle' := hsingle.setCh hsync
  cases i with
  | a => exact ⟨hc, hb, hsingle', fun hs => hout (hs.imp_left hsync), hany, hprev⟩
  | b => exact ⟨ha, hc, hsingle', fun hs => hout (hs.imp_right hsync), hany, hprev⟩

/-- Both channels' invariants and a single lock are all that an emission needs: it sets both flags (R104). -/
theorem Dec.inv_emitByte (ha : d.chA.Inv) (hb : d.chB.Inv) (hsingle : d.SingleActive)
    (hprev : d.prev = none → d.sel = .a) (v : Byte) : (emitByte v d).Inv :=
  ⟨ha, hb, hsingle, fun _ => rfl, fun _ => rfl, hprev⟩

theorem Dec.Inv.emitByte (h : d.Inv) (v : Byte) : (emitByte v d).Inv := by
  obtain ⟨ha, hb, hsingle, -, -, hprev⟩ := h
  exact Dec.inv_emitByte ha hb hsingle hprev v

theorem Dec.Inv.ch (h : d.Inv) (i : Chan) : (d.ch i).Inv := by
  obtain ⟨ha, hb, -⟩ := h
  cases i with
  | a => exact ha
  | b => exact hb

/-- A channel that takes the lock and emits, the other one giving it up (R92). -/
theorem Dec.Inv.lock (h : d.Inv) {i : Chan} (hother : (d.ch i.other).sync = false) {c : Channel} (hc : c.Inv)
    (v : Byte) : (Machine.emitByte v (d.setCh i c)).Inv := by
  have hsingle := Dec.singleActive_setCh_of_other hother c
  obtain ⟨ha, hb, -, -, -, hprev⟩ := h
  cases i with
  | a => exact Dec.inv_emitByte (d := d.setCh .a c) hc hb hsingle hprev v
  | b => exact Dec.inv_emitByte (d := d.setCh .b c) ha hc hsingle hprev v

theorem Dec.Inv.channelBit (h : d.Inv) (i : Chan) (b : Bit) : (channelBit i b d).Inv := by
  have hc := h.ch i
  rcases channelBit_cases i b d with ⟨-, e⟩ | ⟨hi, -, e⟩ | ⟨hi, -, -, e⟩ | ⟨hi, -, hs, hn, e⟩ | ⟨hi, -, -, -, e⟩ <;>
    rw [e]
  case inl => exact h.setCh Channel.inv_reset (fun hreset => absurd hreset Bool.false_ne_true)
  case inr.inl =>
    have hquiet := h.setCh (i := i.other) (h.ch i.other).deactivated (fun hf => absurd hf Bool.false_ne_true)
    exact hquiet.lock (by rw [Dec.ch_setCh_self]) (hc.emptied hi true) _
  case inr.inr.inl => exact h.setCh (hc.shifted hi) id
  case inr.inr.inr.inl => exact h.setCh (hc.appended hi (Bool.and_eq_true_iff.mp hs).1 hn) id
  case inr.inr.inr.inr => exact (h.setCh (hc.emptied hi (d.ch i).sync) id).emitByte _

theorem Dec.Inv.channelStep (h : d.Inv) (i : Chan) (c1 c2 : Chip) : (channelStep i c1 c2 d).Inv := by
  rcases channelStep_cases i c1 c2 d with ⟨-, e⟩ | ⟨-, e⟩ <;> rw [e]
  · exact h.setCh Channel.inv_reset (fun hreset => absurd hreset Bool.false_ne_true)
  · exact h.channelBit i c1

/-- With a previous chip, either channel may be next. -/
theorem Dec.Inv.withPrev (h : d.Inv) (c : Chip) (i : Chan) : ({ d with prev := some c, sel := i } : Dec).Inv := by
  obtain ⟨ha, hb, hsingle, hout, hany, -⟩ := h
  exact ⟨ha, hb, hsingle, hout, hany, fun hnone => absurd hnone (Option.some_ne_none c)⟩

theorem Dec.Inv.deliverChip (h : d.Inv) (c : Chip) : (deliverChip c d).Inv := by
  rcases deliverChip_cases c d with ⟨-, e⟩ | ⟨p, -, e⟩ <;> rw [e]
  · exact h.withPrev c _
  · exact (h.channelStep d.sel p c).withPrev c _

/-- Frame and telegram resets leave both channels at reset and no byte in the frame. -/
theorem Dec.inv_reset (emittedAny : Bool) (out : List DecToken) :
    ({ Dec.reset with emittedAny := emittedAny, out := out } : Dec).Inv :=
  ⟨Channel.inv_reset, Channel.inv_reset, fun ⟨ha, _⟩ => Bool.false_ne_true ha, fun hs => hs.elim id id,
    fun hf => absurd hf Bool.false_ne_true, fun _ => rfl⟩

theorem Dec.Inv.decEffect (h : d.Inv) (op : Instr) : (decEffect op d).Inv := by
  rcases decEffect_cases op d with e | ⟨c, e⟩ | ⟨i, c1, c2, e⟩ | e | ⟨-, e⟩ <;> rw [e]
  · exact h
  · exact h.deliverChip c
  · exact h.channelStep i c1 c2
  · exact Dec.inv_reset d.emittedAny d.out
  · exact Dec.inv_reset false d.out

end Dec

/-! ### The encoder unit's invariant -/

/-- From the first logical bit on, the frame bit count is the number of bits, saturated at 8, whatever it was. -/
theorem encodeBits_cons_sbits (p : StuffTrigger) (w : Bit) (ws : List Bit) (e : Enc) :
    (encodeBits p (w :: ws) e).sbits.toNat = min (e.sbits.toNat + 1 + ws.length) 8 := by
  have hw := encodeBit_sbits_toNat p w e
  rw [encodeBits_cons, encodeBits_sbits p ws _ (by omega), hw]
  omega

/-- A whole group saturates the frame bit count, whatever it was. -/
theorem encodeBits_group_sbits (p : StuffTrigger) (t : Bit) (eacc : BitVec 8) (e : Enc) :
    (encodeBits p (t :: groupBits 7 eacc) e).sbits = 8 := by
  apply BitVec.eq_of_toNat_eq
  rw [encodeBits_cons_sbits, groupBits_length, show (8 : BitVec 4).toNat = 8 from rfl]
  omega

/-- The eighth bit character's group leaves, and the buffer is empty (R67, R68). -/
theorem packBit_eighth {p : StuffTrigger} (t : Bit) {e : Enc} (h : e.ecnt = 7) :
    packBit p t e = { encodeBits p (t :: groupBits 7 e.eacc) e with eacc := 0x00, ecnt := 0 } := by
  rw [packBit_sends h, serialize_eq, groupBits_full]
  exact congrArg (fun x : Enc => { x with eacc := 0x00, ecnt := 0 })
    (encodeBits_withGroup p (t :: groupBits 7 e.eacc) e (appendGroupBit t e.eacc) e.ecnt)

theorem Enc.Inv.packBit {e : Enc} (h : e.Inv) (p : StuffTrigger) (t : Bit) : (packBit p t e).Inv := by
  obtain ⟨hbuffer, hcounts⟩ := h
  by_cases h7 : e.ecnt = 7
  · rw [packBit_eighth t h7]
    exact ⟨Nat.one_pos, .inr (encodeBits_group_sbits p t e.eacc e)⟩
  · have hfits : (e.ecnt + 1).toNat = e.ecnt.toNat + 1 := by
      have hne : e.ecnt.toNat ≠ 7 := fun h' => h7 (BitVec.eq_of_toNat_eq h')
      exact BitVec.toNat_add_of_lt (show e.ecnt.toNat + 1 < 2 ^ 3 by have := e.ecnt.isLt; omega)
    rw [packBit_joins h7]
    exact ⟨hfits ▸ appendGroupBit_lt hbuffer, hcounts⟩

theorem Enc.Inv.encEffect {e : Enc} (h : e.Inv) (p : StuffTrigger) (op : Instr) : (encEffect p op e).Inv := by
  rcases encEffect_cases p op e with eq | ⟨t, eq⟩ | ⟨ending, eq⟩ | ⟨-, b, eq⟩ <;> rw [eq]
  · exact h
  · exact h.packBit p t
  · rw [endOfFrameEnc_eq]
    exact Enc.inv_reset _
  · exact h

end Sys2Proof.Machine

namespace Sys2Proof

open Machine

/-- Settles O53: waiting keeps the state, the reset input resets both units, and an operation keeps the invariant of
each unit. -/
theorem everyStepKeepsTheInvariant : Obligations.EveryStepKeepsTheInvariant := by
  intro s t ⟨hdec, henc⟩ hstep
  rcases step_cases s with ⟨-, e⟩ | ⟨rest, -, e⟩ | ⟨o, rest, -, e⟩ <;> rw [e] at hstep <;> cases hstep
  case inl => exact ⟨hdec, henc⟩
  case inr.inl => exact ⟨Dec.inv_reset false s.dec.out, Enc.inv_reset s.enc.out⟩
  case inr.inr => exact ⟨hdec.decEffect (decode o), henc.encEffect s.cfg.stuffTrigger (decode o)⟩

/-- Settles O52: the reset values of both units meet the invariant. -/
theorem invariantHoldsAfterReset : Obligations.InvariantHoldsAfterReset :=
  ⟨Dec.inv_reset false [], Enc.inv_reset []⟩

/-- Settles O27: an operation is its effect on the decoder unit, and only a match locks a channel, after it has
deactivated the other one. -/
theorem atMostOneChannelIsSynchronized : Obligations.AtMostOneChannelIsSynchronized := by
  intro op s t hsingle hexec
  rw [exec_eq] at hexec
  cases hexec
  exact hsingle.decEffect op

end Sys2Proof
end

section
/-! SUPPORT. The proofs about the machine as a whole: what a step takes and runs (spec/20_memory.md), the independence
of the units (spec/00_scope.md R6), and the resets (spec/10_state.md R34, spec/70_reset_and_hazards.md R131). -/

namespace Sys2Proof

namespace Machine

/-! ### `emittedAny` -/

/-- A symbol never clears `emittedAny` (R104). -/
theorem channelStep_emittedAny (i : Chan) (c1 c2 : Chip) {d : Dec} (h : d.emittedAny = true) :
    (channelStep i c1 c2 d).emittedAny = true := by
  obtain ⟨-, -, ⟨-, hany, -⟩ | ⟨-, hany, -⟩⟩ := channelStep_frame i c1 c2 d
  · exact hany.trans h
  · exact hany

theorem deliverChip_emittedAny (c : Chip) {d : Dec} (h : d.emittedAny = true) :
    (deliverChip c d).emittedAny = true := by
  rcases deliverChip_cases c d with ⟨-, e⟩ | ⟨p, -, e⟩ <;> rw [e]
  · exact h
  · exact channelStep_emittedAny d.sel p c h

/-- Only `END` clears `emittedAny` (R106). -/
theorem decEffect_emittedAny {op : Instr} (hop : ∀ x, op ≠ .decEnd x) {d : Dec} (h : d.emittedAny = true) :
    (decEffect op d).emittedAny = true := by
  rcases decEffect_cases op d with e | ⟨c, e⟩ | ⟨i, c1, c2, e⟩ | e | ⟨⟨x, hx⟩, -⟩
  case inr.inr.inr.inr => exact absurd hx (hop x)
  all_goals rw [e]
  · exact h
  · exact deliverChip_emittedAny c h
  · exact channelStep_emittedAny i c1 c2 h
  · exact h

/-! ### The end of an encoder frame -/

/-- Every operation that ends a frame in the encoder unit leaves its reset values (R74, R81, R82, R84). -/
theorem exec_encFrameEnd (c : Byte) (s : State) : ∀ op ∈ [Instr.encDelimBar, .encDelimNl, .encEnd c],
    ∃ t, exec op s = .next t ∧ t.enc = { Enc.reset with out := t.enc.out } := by
  intro op hop
  have reset (ending : Option DelimKind) :
      endOfFrameEnc s.cfg.stuffTrigger ending s.enc =
        { Enc.reset with out := (endOfFrameEnc s.cfg.stuffTrigger ending s.enc).out } := by
    rw [endOfFrameEnc_eq]
  simp only [List.mem_cons, List.not_mem_nil, or_false] at hop
  obtain rfl | rfl | rfl := hop
  · exact ⟨_, exec_encDelimBar s, reset (some .bar)⟩
  · exact ⟨_, exec_encDelimNl s, reset (some .nl)⟩
  · exact ⟨_, exec_encEnd c s, reset none⟩

/-! ### The codec -/

/-- The two chips of a bit are a legal symbol, its own (R58, R59). -/
theorem symDecode_symbol (b : Bit) : symDecode b (!b) = .bit b := by cases b <;> rfl

end Machine

open Machine

/-- Settles O8: the chips are the bit and its complement. -/
theorem codecRoundTrip : Obligations.CodecRoundTrip := fun b s =>
  ⟨b, !b, exec_codecEnc b s, symDecode_symbol b⟩

/-- Settles O44: each operation is the identity on the other unit, and reads nothing of it. -/
theorem unitsAreIndependent : Obligations.UnitsAreIndependent := by
  intro d e s hd he
  have henc := encEffect_of_decPort s.cfg.stuffTrigger hd
  have hdec := decEffect_of_encPort he
  exact ⟨_, _, { s with dec := decEffect d s.dec, enc := encEffect s.cfg.stuffTrigger e s.enc },
    exec_eq d s, exec_eq e s, henc _, hdec _, by simp only [exec_eq, henc, hdec], by simp only [exec_eq, henc, hdec]⟩

/-- Settles O47: a step on the reset input takes it and sets both units to their reset values. -/
theorem resetInputFromAnyState : Obligations.ResetInputFromAnyState := fun _ _ hin => step_rst hin

/-- Settles O48: the frame resets and the telegram resets, then `emittedAny` operation by operation. -/
theorem resetValuesAndClasses : Obligations.ResetValuesAndClasses := by
  refine ⟨⟨rfl, rfl, fun i => by cases i <;> rfl, rfl, rfl, rfl, rfl, rfl, rfl⟩,
    fun c s => ⟨fun op hop => ⟨_, exec_decDelim s op hop, rfl⟩, ⟨_, exec_decEnd c s, rfl⟩,
      exec_encFrameEnd c s, ⟨_, step_rst rfl, rfl, rfl⟩, fun op t hop hexec hany => ?_⟩⟩
  rw [exec_eq] at hexec
  cases hexec
  exact decEffect_emittedAny hop hany

/-- Settles O49: the step on an offered word. -/
theorem stepRunsTheDecodedOperation : Obligations.StepRunsTheDecodedOperation := fun _ _ _ hin => step_word hin

/-- Settles O50: the step with nothing offered. -/
theorem waitingKeepsAllState : Obligations.WaitingKeepsAllState := fun _ hin => step_wait hin

/-- Settles O51: the three kinds of step. -/
theorem everyStepAnswersANextState : Obligations.EveryStepAnswersANextState := by
  intro s
  rcases step_cases s with ⟨hin, e⟩ | ⟨rest, hin, e⟩ | ⟨o, rest, hin, e⟩
  case inl => exact ⟨s, e, by rw [hin, List.tail_nil], rfl⟩
  case inr.inl => exact ⟨_, e, by rw [hin, List.tail_cons]; rfl, rfl⟩
  case inr.inr => exact ⟨_, e, by rw [hin, List.tail_cons], rfl⟩

end Sys2Proof
end

section
/-! SUPPORT. The proofs of the encoder's statements (spec/41_encoder.md): bit characters and groups, runs of ones, the
length of a step's output, and whole frames. -/

namespace Sys2Proof

namespace Machine

/-! ### A bit character -/

theorem exec_bit_joins (t : Bit) {s : State} (h : s.enc.ecnt ≠ 7) :
    exec (if t then .encBit1 else .encBit0) s = .next { s with
      enc := { s.enc with eacc := appendGroupBit t s.enc.eacc, ecnt := s.enc.ecnt + 1 } } := by
  rw [exec_bit, packBit_joins h]

theorem exec_bit_eighth (t : Bit) {s : State} (h : s.enc.ecnt = 7) :
    exec (if t then .encBit1 else .encBit0) s = .next { s with
      enc := { encodeBits s.cfg.stuffTrigger (t :: bufferBits 7 s.enc.eacc) s.enc with eacc := 0x00, ecnt := 0 } } := by
  rw [exec_bit, packBit_eighth t h, bufferBits_eq_groupBits]

/-! ### What a step emits -/

theorem wideStuffDue_eq_iff {k n : Nat} : wideStuffDue .eq true k n = true ↔ 8 ≤ k ∧ n = 5 := by
  simp [wideStuffDue]

theorem wideStuffDue_ge_iff {k n : Nat} : wideStuffDue .ge true k n = true ↔ 8 ≤ k ∧ 5 ≤ n := by
  simp [wideStuffDue]

/-- On a count of at most five the two triggers agree (R72). -/
theorem wideStuffDue_iff_of_le_five (p : StuffTrigger) {k n : Nat} (h : n ≤ 5) :
    wideStuffDue p true k n = true ↔ 8 ≤ k ∧ n = 5 := by
  cases p with
  | eq => exact wideStuffDue_eq_iff
  | ge => rw [wideStuffDue_ge_iff]; omega

/-- A stuffed zero follows no bit that has fewer than four ones before it, under either trigger (R72). -/
theorem four_le_of_wideStuffDue {p : StuffTrigger} {w : Bit} {k n : Nat}
    (h : wideStuffDue p w k (if w then n + 1 else 0) = true) : 4 ≤ n := by
  cases w with
  | false => exact absurd h Bool.false_ne_true
  | true =>
    by_contra hlt
    obtain ⟨-, hfive⟩ := (wideStuffDue_iff_of_le_five p (show n + 1 ≤ 5 by omega)).mp h
    omega

/-- At most one stuffed zero for each five ones, of which four may stand before the first bit. -/
theorem wideChips_length_le (p : StuffTrigger) (ws : List Bit) (n k : Nat) :
    (wideChips p ws n k).length ≤ 2 * (ws.length + (ws.length + min n 4) / 5) := by
  induction ws generalizing n k with
  | nil => exact Nat.zero_le _
  | cons w ws ih =>
    rcases hdue : wideStuffDue p w k (if w then n + 1 else 0) with _ | _
    · have hchips := ih (if w then n + 1 else 0) (k + 1)
      have hcount : min (if w then n + 1 else 0) 4 ≤ min n 4 + 1 := by split <;> omega
      simp only [wideChips, hdue, Bool.false_eq_true, if_false, List.length_append, List.length_cons, List.length_nil]
      omega
    · have hchips := ih 0 (k + 1)
      have hcount := four_le_of_wideStuffDue hdue
      simp only [wideChips, hdue, if_true, List.length_append, List.length_cons, List.length_nil]
      omega

/-- A bit character sends nothing or a group of eight bits (R67). -/
theorem packBit_out (p : StuffTrigger) (t : Bit) (e : Enc) :
    ∃ ws : List Bit, ws.length ≤ 8 ∧
      (packBit p t e).out = e.out ++ (wideChips p ws e.ones.toNat e.sbits.toNat).map .chip := by
  by_cases h7 : e.ecnt = 7
  · exact ⟨t :: groupBits 7 e.eacc, by rw [List.length_cons, groupBits_length],
      by rw [packBit_eighth t h7]; exact encodeBits_out p _ e⟩
  · exact ⟨[], Nat.zero_le _, by rw [packBit_joins h7]; exact (List.append_nil _).symm⟩

/-- An operation of the encoder unit sends at most eight bits, then at most one delimiter. -/
theorem encEffect_out (p : StuffTrigger) {op : Instr} (h : op.port = .enc) (e : Enc) :
    ∃ (ws : List Bit) (ds : List DelimKind), ws.length ≤ 8 ∧ ds.length ≤ 1 ∧
      (encEffect p op e).out =
        e.out ++ (wideChips p ws e.ones.toNat e.sbits.toNat).map .chip ++ ds.map .delim := by
  rcases encEffect_cases p op e with eq | ⟨t, eq⟩ | ⟨ending, eq⟩ | ⟨hcodec, -⟩
  · exact ⟨[], [], Nat.zero_le _, Nat.zero_le _, by simp [eq, wideChips]⟩
  · obtain ⟨ws, hws, hout⟩ := packBit_out p t e
    exact ⟨ws, [], hws, Nat.zero_le _, by rw [eq, hout, List.map_nil, List.append_nil]⟩
  · have hpartial : (bufferBits e.ecnt.toNat e.eacc).length ≤ 8 := by
      rw [bufferBits_eq_groupBits, groupBits_length]
      exact e.ecnt.isLt.le
    exact ⟨_, ending.toList, hpartial, by cases ending <;> simp, by rw [eq, endOfFrameEnc_eq]⟩
  · exact absurd (h.symm.trans hcodec) (by decide)

theorem encEffect_out_extends (p : StuffTrigger) {op : Instr} (h : op.port = .enc ∨ op.port = .codec) (e : Enc) :
    e.out <+: (encEffect p op e).out := by
  rcases h with henc | hcodec
  · obtain ⟨ws, ds, -, -, hout⟩ := encEffect_out p henc e
    rw [hout, List.append_assoc]
    exact List.prefix_append _ _
  · cases op with
    | codecEnc0 => exact List.prefix_append _ _
    | codecEnc1 => exact List.prefix_append _ _
    | _ => exact absurd hcodec (by simp [Instr.port])

/-! ### Runs of ones from bit 8 on -/

/-- The tokens of a one, then those of a run that goes on. -/
theorem flatMap_range_succ {α : Type} (f : Nat → List α) (m : Nat) :
    (List.range (m + 1)).flatMap f = f 0 ++ (List.range m).flatMap fun j => f (j + 1) := by
  rw [List.range_succ_eq_map, List.flatMap_cons, List.flatMap_map]

/-- A run of ones after at most four: the zero is due at each fifth one of the run, under either trigger. -/
theorem wide_ones (p : StuffTrigger) (m : Nat) {n k : Nat} (hn : n ≤ 4) (hk : 8 ≤ k) :
    (wideChips p (List.replicate m true) n k).map .chip =
        (List.range m).flatMap (fun j => oneTokens ((n + j + 1) % 5 = 0)) ∧
      wideOnes p (List.replicate m true) n k = (n + m) % 5 := by
  induction m generalizing n k with
  | zero => exact ⟨rfl, (Nat.mod_eq_of_lt (show n + 0 < 5 by omega)).symm⟩
  | succ m ih =>
    rw [List.replicate_succ, flatMap_range_succ]
    by_cases h4 : n = 4
    · have hdue : wideStuffDue p true k (n + 1) = true :=
        (wideStuffDue_iff_of_le_five p (by omega)).mpr ⟨hk, by omega⟩
      obtain ⟨hchips, hones⟩ := ih (n := 0) (k := k + 1) (by omega) (by omega)
      have hmod (j : Nat) : (n + (j + 1) + 1) % 5 = (0 + j + 1) % 5 := by omega
      simp only [wideChips, wideOnes, hdue, if_true, List.map_append, hchips, hones, hmod]
      refine ⟨?_, by omega⟩
      subst h4
      rfl
    · have hdue : wideStuffDue p true k (n + 1) = false :=
        Bool.eq_false_iff.mpr (by rw [Ne, wideStuffDue_iff_of_le_five p (by omega)]; omega)
      obtain ⟨hchips, hones⟩ := ih (n := n + 1) (k := k + 1) (by omega) (by omega)
      have hmod (j : Nat) : n + (j + 1) + 1 = n + 1 + j + 1 := by omega
      have hfirst : ¬ (n + 0 + 1) % 5 = 0 := by omega
      simp only [wideChips, wideOnes, hdue, if_true, Bool.false_eq_true, if_false, List.map_append, hchips, hones, hmod,
        hfirst, decide_false]
      exact ⟨rfl, by omega⟩

/-- A run of `m` ones counted from 0 is sent as `m + m / 5` symbols. -/
theorem length_fifthOnes (m : Nat) :
    ((List.range m).flatMap fun j => oneTokens ((0 + j + 1) % 5 = 0)).length = 2 * (m + m / 5) := by
  induction m with
  | zero => rfl
  | succ m ih =>
    rw [List.range_succ, List.flatMap_append, List.length_append, ih, List.flatMap_singleton]
    by_cases hfifth : (0 + m + 1) % 5 = 0
    · rw [decide_eq_true hfifth, show (oneTokens true).length = 4 from rfl]
      omega
    · rw [decide_eq_false hfifth, show (oneTokens false).length = 2 from rfl]
      omega

/-- Under `EQ` a run that is past five is never stuffed. -/
theorem wideChips_eq_pastFive (m : Nat) {n : Nat} (k : Nat) (hn : 5 ≤ n) :
    (wideChips .eq (List.replicate m true) n k).map .chip = (List.replicate m (oneTokens false)).flatten := by
  induction m generalizing n k with
  | zero => rfl
  | succ m ih =>
    have hdue : wideStuffDue .eq true k (n + 1) = false :=
      Bool.eq_false_iff.mpr (by rw [Ne, wideStuffDue_eq_iff]; omega)
    rw [List.replicate_succ, List.replicate_succ, List.flatten_cons, ← ih (n := n + 1) (k + 1) (by omega)]
    simp only [wideChips, hdue, if_true, Bool.false_eq_true, if_false, List.map_append]
    rfl

/-- Under `GE` a run that is past five is stuffed after its first one, and is counted from 0 then. -/
theorem wideChips_ge_pastFive (m : Nat) {n k : Nat} (hn : 5 ≤ n) (hk : 8 ≤ k) :
    (wideChips .ge (List.replicate m true) n k).map .chip =
      (List.range m).flatMap fun j => oneTokens (j % 5 = 0) := by
  cases m with
  | zero => rfl
  | succ m =>
    have hdue : wideStuffDue .ge true k (n + 1) = true := wideStuffDue_ge_iff.mpr ⟨hk, by omega⟩
    obtain ⟨hchips, -⟩ := wide_ones .ge m (n := 0) (k := k + 1) (by omega) (by omega)
    rw [List.replicate_succ, flatMap_range_succ]
    simp only [wideChips, hdue, if_true, List.map_append, hchips, Nat.zero_add]
    rfl

end Machine

open Machine

/-- Settles O32: the character is a bit for the buffer, which is not full with it. -/
theorem bitCharacterJoinsTheGroup : Obligations.BitCharacterJoinsTheGroup := by
  intro s h7
  have hzero : appendGroupBit false s.enc.eacc = s.enc.eacc <<< 1 := BitVec.or_zero
  exact ⟨hzero ▸ exec_bit_joins false h7, exec_bit_joins true h7⟩

/-- Settles O33: the group of eight on counters that never saturate; eight bits saturate the frame bit count. -/
theorem eighthBitCharacterSendsTheGroup : Obligations.EighthBitCharacterSendsTheGroup := by
  intro t s h7 ws n k
  obtain ⟨hcounts, hout⟩ := encodeBits_wide s.cfg.stuffTrigger ws s.enc.counts_self
  exact ⟨_, exec_bit_eighth t h7, hout, rfl, rfl, hcounts.ones_eq,
    encodeBits_group_sbits s.cfg.stuffTrigger t s.enc.eacc s.enc⟩

/-- Settles O37: the group's eight bits are the frame's first, and those are never stuffed (R70). -/
theorem firstGroupOfAFrameIsNeverStuffed : Obligations.FirstGroupOfAFrameIsNeverStuffed := by
  intro t s h7 h0
  have hfirst : s.enc.sbits.toNat + (t :: bufferBits 7 s.enc.eacc).length ≤ 8 := by
    rw [h0, List.length_cons, bufferBits_eq_groupBits, groupBits_length]
    decide
  have hout := encodeBits_out s.cfg.stuffTrigger (t :: bufferBits 7 s.enc.eacc) s.enc
  rw [wideChips_eq_manchester, stuffedBits_first _ _ _ _ hfirst] at hout
  exact ⟨_, exec_bit_eighth t h7, hout⟩

/-- Settles O38: the run on counters that never saturate. -/
theorem runAfterBitEightIsStuffedAtEachFifthOne : Obligations.RunAfterBitEightIsStuffedAtEachFifthOne := by
  intro p m e hones hsbits
  obtain ⟨hchips, hcount⟩ := wide_ones p m hones hsbits
  obtain ⟨hcounts, hout⟩ := encodeBits_wide p (List.replicate m true) e.counts_self
  rw [hchips] at hout
  refine ⟨hout, ?_, fun h0 => ?_⟩
  · rw [hcounts.ones_eq, hcount]
    omega
  · rw [hout, h0, List.length_append, ← length_fifthOnes]
    rfl

/-- Settles O39: the run on counters that never saturate, under each trigger. -/
theorem runCrossingBitEightDependsOnTheTrigger : Obligations.RunCrossingBitEightDependsOnTheTrigger := fun m e h5 h8 =>
  ⟨by rw [encodeBits_out, wideChips_eq_pastFive m _ h5], by rw [encodeBits_out, wideChips_ge_pastFive m h5 h8]⟩

/-- Settles O40: eight bits, of which the first may be the fifth of its run, give at most ten symbols. -/
theorem encoderStepEmitsAtMostTwentyChips : Obligations.EncoderStepEmitsAtMostTwentyChips := by
  intro op s hport
  obtain ⟨ws, ds, hws, hds, hout⟩ := encEffect_out s.cfg.stuffTrigger hport s.enc
  have hlength := wideChips_length_le s.cfg.stuffTrigger ws s.enc.ones.toNat s.enc.sbits.toNat
  exact ⟨_, _, ds, exec_eq op s, hout, by omega, hds⟩

/-- Settles O41: the operation is its effect on the encoder unit, whose output only grows. -/
theorem encoderOperationsFrame : Obligations.EncoderOperationsFrame := fun op s hport =>
  ⟨_, exec_eq op s, decEffect_of_encPort hport s.dec, rfl, rfl, encEffect_out_extends s.cfg.stuffTrigger hport s.enc⟩

/-- Settles O42: the run packs the text and ends the frame. -/
theorem encodedFrameIsTheReference : Obligations.EncodedFrameIsTheReference := fun text ending s hstart =>
  ⟨_, run_encFrame text ending s, endOfFrameEnc_packText s.cfg.stuffTrigger text ending hstart, rfl, rfl⟩

end Sys2Proof
end

section
/-! SUPPORT. The proofs of the phase channel's statements (spec/42_phase_channel.md): stuffed zeros, the first match
after a reset, the loss of lock, the match within a frame, and what symbols and chips leave alone. -/

namespace Sys2Proof

namespace Machine

/-! ### A stuffed zero -/

/-- A zero after exactly five ones enters the window and is no data bit: a match would need six ones (R90, R93). -/
theorem channelBit_stuffedZero {i : Chan} {d : Dec} (hinv : (d.ch i).Inv) (h5 : (d.ch i).run = 5) :
    channelBit i false d = d.setCh i { d.ch i with run := 0, win := windowAfter false (d.ch i).win } := by
  obtain ⟨hrun, -, -, hshows⟩ := hinv
  have hm : isSyncWord (shiftWindow false (d.ch i).win) = false := Bool.eq_false_iff.mpr fun hm => by
    obtain ⟨-, h6⟩ := run_of_match false _ _ hrun hshows hm
    exact absurd (h5.symm.trans h6) (by decide)
  have hstuffed : isStuffed false (d.ch i).run = true := (isStuffed_iff _ _).mpr ⟨rfl, h5⟩
  rw [channelBit_quiet rfl hm (by rw [hstuffed, Bool.not_true, Bool.and_false]), Channel.shifted_eq_windowAfter]
  rfl

/-- A channel's new value with the same `sync` changes no channel's `sync`. -/
theorem Dec.sync_setCh {d : Dec} {i : Chan} {c : Channel} (h : c.sync = (d.ch i).sync) (j : Chan) :
    ((d.setCh i c).ch j).sync = (d.ch j).sync := by
  obtain rfl | rfl := i.eq_or_eq_other j
  · rw [Dec.ch_setCh_self, h]
  · rw [Dec.ch_other_setCh]

/-- A stuffed zero emits nothing and changes no `sync` (R97). -/
theorem channelBit_stuffedZero_frame {i : Chan} {d : Dec} (hinv : (d.ch i).Inv) (h5 : (d.ch i).run = 5) :
    (channelBit i false d).out = d.out ∧ (channelBit i false d).emittedAny = d.emittedAny ∧
    (channelBit i false d).frameOut = d.frameOut ∧ ∀ j, ((channelBit i false d).ch j).sync = (d.ch j).sync := by
  rw [channelBit_stuffedZero hinv h5]
  exact ⟨Dec.out_setCh .., Dec.emittedAny_setCh .., Dec.frameOut_setCh .., Dec.sync_setCh rfl⟩

/-! ### The first bits after a reset -/

/-- A zero after exactly six ones completes the sync word (R91, R92). -/
theorem isSyncWord_of_sixOnes : ∀ win : BitVec 8, showsRun win 6 → isSyncWord (shiftWindow false win) = true := by
  decide

/-- Bits that cannot bring the one-run beyond six shift through a Searching channel: there is no match, because that
needs a run of six before the last bit, and no IllegalRun. -/
theorem channelBits_searching (i : Chan) (bs : List Bit) {d : Dec} (hinv : (d.ch i).Inv)
    (hsync : (d.ch i).sync = false) (hshort : (d.ch i).run.toNat + bs.length ≤ 6) :
    ∃ c : Channel, c.Inv ∧ c.sync = false ∧ c.run = bs.foldl (fun run b => nextRun b run) (d.ch i).run ∧
      bs.foldl (fun d b => channelBit i b d) d = d.setCh i c := by
  induction bs generalizing d with
  | nil => exact ⟨d.ch i, hinv, hsync, rfl, (Dec.setCh_ch_self d i).symm⟩
  | cons b bs ih =>
    rw [List.length_cons] at hshort
    have hnot6 : (d.ch i).run ≠ 6 := fun h6 => by rw [h6] at hshort; simp at hshort
    have hi : isIllegalRun b (d.ch i).run = false :=
      Bool.eq_false_iff.mpr fun hi => hnot6 ((isIllegalRun_iff _ _).mp hi).2
    have hm : isSyncWord (shiftWindow b (d.ch i).win) = false := Bool.eq_false_iff.mpr fun hm => by
      obtain ⟨hrun, -, -, hshows⟩ := hinv
      exact hnot6 (run_of_match b _ _ hrun hshows hm).2
    have hbit := channelBit_quiet hi hm (by rw [hsync, Bool.false_and])
    have hnext : (nextRun b (d.ch i).run).toNat ≤ (d.ch i).run.toNat + 1 := by
      cases b with
      | false => exact Nat.zero_le _
      | true => exact (nextRun_one_toNat (by omega)).le
    obtain ⟨c, hc, hcsync, hcrun, hfold⟩ := ih (d := d.setCh i ((d.ch i).shifted b))
      (by rw [Dec.ch_setCh_self]; exact hinv.shifted hi) (by rw [Dec.ch_setCh_self]; exact hsync)
      (by rw [Dec.ch_setCh_self]; exact (Nat.add_le_add_right hnext _).trans (by omega))
    rw [Dec.ch_setCh_self] at hcrun
    exact ⟨c, hc, hcsync, hcrun, by rw [List.foldl_cons, hbit, hfold, Dec.setCh_setCh_self]⟩

/-! ### The frame of symbols and chips -/

/-- Each symbol's operation is the channel's step on its chips. -/
theorem exec_symbolOperation (i : Chan) (s : State) : ∀ op ∈ [Instr.sym01 i, .sym10 i, .sym00 i, .sym11 i],
    ∃ c1 c2, exec op s = .next { s with dec := channelStep i c1 c2 s.dec } := by
  intro op hop
  simp only [List.mem_cons, List.not_mem_nil, or_false] at hop
  obtain rfl | rfl | rfl | rfl := hop
  · exact ⟨false, true, rfl⟩
  · exact ⟨true, false, rfl⟩
  · exact ⟨false, false, rfl⟩
  · exact ⟨true, true, rfl⟩

/-- What a symbol in channel `i` emits and does to the other channel: nothing, or a byte with the flags of `EmitByte`,
a match having cleared the other channel's `sync`, `acc` and `cnt` only. -/
def StepFrame (i : Chan) (d d' : Dec) : Prop :=
  (d'.ch i.other = d.ch i.other ∨
    d'.ch i.other = { d.ch i.other with sync := false, acc := 0x00, cnt := 0 }) ∧
  ((d'.out = d.out ∧ d'.emittedAny = d.emittedAny ∧ d'.frameOut = d.frameOut ∧ d'.ch i.other = d.ch i.other) ∨
   (∃ v, d'.out = d.out ++ [⟨v, d.emittedAny && !d.frameOut⟩] ∧ d'.emittedAny = true ∧ d'.frameOut = true))

theorem stepFrame_channelStep (i : Chan) (c1 c2 : Chip) (d : Dec) : StepFrame i d (channelStep i c1 c2 d) := by
  obtain ⟨-, -, ⟨hout, hany, hframe, hother⟩ | ⟨⟨v, hout⟩, hany, hframe, hother⟩⟩ := channelStep_frame i c1 c2 d
  · exact ⟨.inl hother, .inl ⟨hout, hany, hframe, hother⟩⟩
  · exact ⟨hother, .inr ⟨v, hout, hany, hframe⟩⟩

theorem stepFrame_deliverChip (c : Chip) (d : Dec) : StepFrame d.sel d (deliverChip c d) := by
  rcases deliverChip_cases c d with ⟨-, e⟩ | ⟨p, -, e⟩ <;> rw [e]
  · exact ⟨.inl (Dec.ch_withPrevSel ..), .inl ⟨rfl, rfl, rfl, Dec.ch_withPrevSel ..⟩⟩
  · have h := stepFrame_channelStep d.sel p c d
    simp only [StepFrame, Dec.ch_withPrevSel] at h ⊢
    exact h

/-! ### Whole bytes -/

/-- Channel `i` has just emitted a whole byte: the sync byte of a match, or the eighth data bit's byte. -/
def EmitsWholeByte (i : Chan) (d d' : Dec) : Prop :=
  ∃ v sep, d'.out = d.out ++ [⟨v, sep⟩] ∧ (d'.ch i).acc = 0x00 ∧ (d'.ch i).cnt = 0 ∧
    ((v = 0x7E ∧ (d'.ch i).win = 0x7E ∧ (d'.ch i).sync = true) ∨ ((d.ch i).sync = true ∧ (d.ch i).cnt = 7))

/-- A decoded bit emits nothing, or a whole byte (R92, R93). -/
theorem channelBit_emits (i : Chan) (b : Bit) (d : Dec) :
    (channelBit i b d).out = d.out ∨ EmitsWholeByte i d (channelBit i b d) := by
  rcases channelBit_cases i b d with ⟨-, e⟩ | ⟨-, hm, e⟩ | ⟨-, -, -, e⟩ | ⟨-, -, -, -, e⟩ | ⟨-, -, hs, h7, e⟩ <;> rw [e]
  case inr.inl =>
    refine .inr ⟨Config.syncWord, d.emittedAny && !d.frameOut, ?_, ?_⟩
    · simp only [emitByte_out, Dec.out_setCh, Dec.emittedAny_setCh, Dec.frameOut_setCh]
    · rw [emitByte_ch, Dec.ch_setCh_self]
      exact ⟨rfl, rfl, .inl ⟨rfl, (isSyncWord_iff _).mp hm, rfl⟩⟩
  case inr.inr.inr.inr =>
    refine .inr ⟨insertDataBit b (d.ch i).cnt (d.ch i).acc, d.emittedAny && !d.frameOut, ?_, ?_⟩
    · simp only [emitByte_out, Dec.out_setCh, Dec.emittedAny_setCh, Dec.frameOut_setCh]
    · rw [emitByte_ch, Dec.ch_setCh_self]
      exact ⟨rfl, rfl, .inr ⟨(Bool.and_eq_true_iff.mp hs).1, BitVec.eq_of_toNat_eq h7⟩⟩
  all_goals exact .inl (Dec.out_setCh ..)

theorem channelStep_emits (i : Chan) (c1 c2 : Chip) (d : Dec) :
    (channelStep i c1 c2 d).out = d.out ∨ EmitsWholeByte i d (channelStep i c1 c2 d) := by
  rcases channelStep_cases i c1 c2 d with ⟨-, e⟩ | ⟨-, e⟩ <;> rw [e]
  · exact .inl (Dec.out_setCh ..)
  · exact channelBit_emits i c1 d

theorem deliverChip_emits (c : Chip) (d : Dec) :
    (deliverChip c d).out = d.out ∨ EmitsWholeByte d.sel d (deliverChip c d) := by
  rcases deliverChip_cases c d with ⟨-, e⟩ | ⟨p, -, e⟩ <;> rw [e]
  · exact .inl rfl
  · have h := channelStep_emits d.sel p c d
    simp only [EmitsWholeByte, Dec.ch_withPrevSel] at h ⊢
    exact h

/-! ### The loss of lock -/

/-- When the Synchronized channel is reset, no channel is Synchronized, and the other one is as it was. -/
theorem Dec.SingleActive.reset_active {d : Dec} (h : d.SingleActive) {i : Chan} (hsync : (d.ch i).sync = true) :
    (d.setCh i clearedChannel).chA.sync = false ∧ (d.setCh i clearedChannel).chB.sync = false ∧
    ((d.setCh i clearedChannel).ch i).acc = 0x00 ∧ ((d.setCh i clearedChannel).ch i).cnt = 0 ∧
    (d.setCh i clearedChannel).out = d.out ∧ (d.setCh i clearedChannel).ch i.other = d.ch i.other := by
  cases i with
  | a => exact ⟨rfl, Bool.eq_false_iff.mpr fun hb => h ⟨hsync, hb⟩, rfl, rfl, rfl, rfl⟩
  | b => exact ⟨Bool.eq_false_iff.mpr fun ha => h ⟨ha, hsync⟩, rfl, rfl, rfl, rfl, rfl⟩

end Machine

open Machine

/-- Settles O13: the zero is neither a match nor data. -/
theorem stuffedZeroIsNotData : Obligations.StuffedZeroIsNotData := fun i s hinv h5 => by
  rw [exec_sym01, channelBit_stuffedZero hinv h5]

/-- Settles O15: the symbol's operation, and the chips `0`, `1`, which write `prev` and `sel` besides. -/
theorem stuffedZeroNeverCompletesAMatch : Obligations.StuffedZeroNeverCompletesAMatch := by
  refine ⟨fun i s hinv h5 => ⟨_, exec_sym01 i s, channelBit_stuffedZero_frame hinv h5⟩, fun s hinv h5 hprev => ?_⟩
  obtain ⟨hout, hany, hframe, hsync⟩ := channelBit_stuffedZero_frame hinv h5
  refine ⟨_, exec_chip true s, ?_⟩
  rw [deliverChip_next true hprev, channelStep_zero]
  exact ⟨hout, hany, hframe, fun j => (congrArg Channel.sync (Dec.ch_withPrevSel ..)).trans (hsync j)⟩

/-- Settles O16: six ones shift through the channel and the zero after them is the match; fewer than seven bits leave no
room for a zero after six ones. -/
theorem sevenBitsFromResetCanMatchFewerCannot : Obligations.SevenBitsFromResetCanMatchFewerCannot := by
  intro i s hreset
  have hinv : (s.dec.ch i).Inv := hreset ▸ Channel.inv_reset
  have hsync : (s.dec.ch i).sync = false := hreset ▸ rfl
  have hrun : (s.dec.ch i).run = 0 := hreset ▸ rfl
  refine ⟨⟨_, run_symOf i _ s, ?seven⟩, fun bs hshort => ⟨_, run_symOf i bs s, ?fewer⟩⟩
  case seven =>
    obtain ⟨c, ⟨-, -, -, hshows⟩, -, hsix, hfold⟩ := channelBits_searching i (List.replicate 6 true) hinv hsync
      (by rw [hrun]; decide)
    rw [hrun, show (List.replicate 6 true).foldl (fun run b => nextRun b run) (0 : BitVec 3) = 6 from rfl] at hsix
    rw [hsix] at hshows
    have hmatch := channelBit_match (i := i) (b := false) (d := s.dec.setCh i c) rfl
      (by rw [Dec.ch_setCh_self]; exact isSyncWord_of_sixOnes c.win hshows)
    rw [show [true, true, true, true, true, true, false] = List.replicate 6 true ++ [false] from rfl,
      List.foldl_append, hfold, List.foldl_cons, List.foldl_nil, hmatch]
    simp [Config.syncWord]
  case fewer =>
    obtain ⟨c, -, hcsync, -, hfold⟩ := channelBits_searching i bs hinv hsync
      (by rw [hrun]; exact (Nat.zero_add _).trans_le (by omega))
    rw [hfold, Dec.ch_setCh_self]
    exact ⟨Dec.out_setCh .., hcsync⟩

/-- Settles O17: both errors reset the channel (R86, R89). -/
theorem errorInTheActiveChannelLosesLock : Obligations.ErrorInTheActiveChannelLosesLock := by
  intro i s hsingle hsync
  obtain ⟨-, -, hseventh⟩ := oneRunCountsAndSeventhOneIsIllegal i s
  exact ⟨fun op hop => ⟨_, exec_illegalSymbol i s op hop, hsingle.reset_active hsync⟩,
    fun h6 => ⟨_, hseventh h6, hsingle.reset_active hsync⟩⟩

/-- Settles O18: the match of R92, in a frame that has emitted, because the channel is Synchronized. -/
theorem rematchStaysInTheFrame : Obligations.RematchStaysInTheFrame := by
  intro i s ⟨_, _, _, hsynced, _, _⟩ hsync hm
  have hframe : s.dec.frameOut = true := hsynced (by
    cases i with
    | a => exact .inl hsync
    | b => exact .inr hsync)
  obtain ⟨-, hmatch⟩ := syncMatchLocksTheChannelAndEmitsTheSyncByte
  obtain ⟨t, hexec, hch, -, hout, -, hframe', -⟩ := hmatch i s hm
  rw [hframe, Bool.not_true, Bool.and_false] at hout
  exact ⟨t, hexec, hout, by rw [hch], by rw [hch], by rw [hch], hframe'⟩

/-- Settles O19: each symbol is a step of its channel. -/
theorem symbolOperationsFrame : Obligations.SymbolOperationsFrame := by
  intro i op s hop
  obtain ⟨c1, c2, hexec⟩ := exec_symbolOperation i s op hop
  obtain ⟨hprev, hsel, -⟩ := channelStep_frame i c1 c2 s.dec
  exact ⟨_, hexec, rfl, rfl, rfl, hprev, hsel, stepFrame_channelStep i c1 c2 s.dec⟩

/-- Settles O21: the first chip of a frame runs no symbol, a later one runs it in the channel `sel` names. -/
theorem chipOperationsFrame : Obligations.ChipOperationsFrame := fun c s =>
  ⟨_, exec_chip c s, deliverChip_prev c s.dec, deliverChip_sel c s.dec, rfl, rfl, rfl, stepFrame_deliverChip c s.dec⟩

/-- Settles O22: a chip emits nothing or a whole byte, and the other operations of the unit emit nothing. -/
theorem onlyWholeBytesAreEmitted : Obligations.OnlyWholeBytesAreEmitted := by
  refine ⟨fun c s t hexec hne => ?chip, fun x op s hop => ?other⟩
  case chip =>
    rw [exec_chip] at hexec
    cases hexec
    exact (deliverChip_emits c s.dec).resolve_left hne
  case other =>
    simp only [List.mem_cons, List.not_mem_nil, or_false] at hop
    obtain rfl | rfl | rfl | rfl := hop
    · exact ⟨_, exec_decDelim s .decDelimBar (by simp), frameResetDec_out s.dec⟩
    · exact ⟨_, exec_decDelim s .decDelimNl (by simp), frameResetDec_out s.dec⟩
    · exact ⟨_, exec_decNoise x s, rfl⟩
    · exact ⟨_, exec_decEnd x s, rfl⟩

/-- Settles O28: two equal chips are an illegal symbol of the channel `sel` names, which is reset. -/
theorem illegalPairDoesNotTouchTheOtherChannel : Obligations.IllegalPairDoesNotTouchTheOtherChannel := by
  intro c s hprev
  refine ⟨_, exec_chip c s, ?_⟩
  rw [deliverChip_next c hprev, channelStep_illegal]
  exact ⟨(Dec.ch_withPrevSel ..).trans (Dec.ch_setCh_self ..), (Dec.ch_withPrevSel ..).trans (Dec.ch_other_setCh ..),
    Dec.out_setCh ..⟩

end Sys2Proof
end

section
/-! SUPPORT. The proofs of the statements that compare two runs: noise left out of a telegram (R83, R112), the
accumulator of a Searching channel (R33), the two phases (R99, R115) and the round trip (R117). -/

namespace Sys2Proof

/-! ### Noise words -/

/-- A noise word's class is `NOISE` (R48). -/
theorem classOf_of_isNoiseWord {w : InWord} (h : Machine.isNoiseWord w = true) :
    classOf w = .noise (InWord.char w) := by
  simp only [Machine.isNoiseWord, Bool.and_eq_true, Bool.not_eq_true'] at h
  obtain ⟨hend, hchar⟩ := h
  have hw := inWord_of_fields w
  rw [show InWord.endBit w = false from hend] at hw
  exact (congrArg classOf hw.symm).trans (classOf_noise hchar)

namespace Machine

theorem decode_dec_noiseWord {w : InWord} (h : isNoiseWord w = true) :
    decode (.dec w) = .decNoise (InWord.char w) := by
  rw [decode, decodeDec, classOf_of_isNoiseWord h]

theorem decode_enc_noiseWord {w : InWord} (h : isNoiseWord w = true) :
    decode (.enc w) = .encNoise (InWord.char w) := by
  rw [decode, decodeEnc, classOf_of_isNoiseWord h]

/-- Words that do nothing can be dropped from a run over words. -/
theorem foldl_filter_of_fixed {σ α : Type} (f : σ → α → σ) (p : α → Bool) (h : ∀ x s, p x = true → f s x = s)
    (xs : List α) (s : σ) : (xs.filter fun x => !p x).foldl f s = xs.foldl f s := by
  rw [List.foldl_filter]
  congr 1
  funext s x
  rcases hp : p x with _ | _
  · rfl
  · exact (h x s hp).symm

/-- A run over words of one port. -/
theorem run_port (port : InWord → Offer) (ws : List InWord) (s : State) :
    run (ws.map fun w => .word (port w)) s = .next { s with
      dec := ws.foldl (fun d w => decEffect (decode (port w)) d) s.dec
      enc := ws.foldl (fun e w => encEffect s.cfg.stuffTrigger (decode (port w)) e) s.enc
      input := [] } := by
  have hwords := run_words (ws.map port) s
  simp only [List.map_map, List.foldl_map] at hwords
  exact hwords

/-- Where noise words do nothing, a run over words of one port may drop them. -/
theorem run_dropNoise {port : InWord → Offer} (ws : List InWord) (s : State)
    (hdec : ∀ w d, isNoiseWord w = true → decEffect (decode (port w)) d = d)
    (henc : ∀ w e, isNoiseWord w = true → encEffect s.cfg.stuffTrigger (decode (port w)) e = e) :
    ∃ t, run (ws.map fun w => .word (port w)) s = .next t ∧
      run ((ws.filter fun w => !isNoiseWord w).map fun w => .word (port w)) s = .next t :=
  ⟨_, run_port port ws s, by rw [run_port, foldl_filter_of_fixed _ _ hdec, foldl_filter_of_fixed _ _ henc]⟩

/-! ### What can be observed of a channel -/

/-- A channel as it can be observed: `acc` and `cnt` only while it is Synchronized (R33). -/
def Channel.observed (c : Channel) : Channel := if c.sync then c else { c with acc := 0x00, cnt := 0 }

/-- A decoder unit as it can be observed. -/
def Dec.observed (d : Dec) : Dec := { d with chA := d.chA.observed, chB := d.chB.observed }

@[simp] theorem Channel.observed_run (c : Channel) : c.observed.run = c.run := by
  unfold Channel.observed; split <;> rfl
@[simp] theorem Channel.observed_win (c : Channel) : c.observed.win = c.win := by
  unfold Channel.observed; split <;> rfl
@[simp] theorem Channel.observed_sync (c : Channel) : c.observed.sync = c.sync := by
  unfold Channel.observed; split <;> rfl

theorem Channel.observed_of_sync {c : Channel} (h : c.sync = true) : c.observed = c := if_pos h

@[simp] theorem Channel.observed_shifted (b : Bit) (c : Channel) : (c.shifted b).observed = c.observed.shifted b := by
  unfold Channel.observed Channel.shifted
  dsimp only
  split <;> rfl

@[simp] theorem Channel.observed_observed (c : Channel) : c.observed.observed = c.observed := by
  unfold Channel.observed
  split <;> simp_all

@[simp] theorem Dec.observed_ch (d : Dec) (i : Chan) : d.observed.ch i = (d.ch i).observed := by cases i <;> rfl

theorem Dec.observed_setCh (d : Dec) (i : Chan) (c : Channel) :
    (d.setCh i c).observed = d.observed.setCh i c.observed := by cases i <;> rfl

theorem Dec.observed_emitByte (v : Byte) (d : Dec) : (emitByte v d).observed = emitByte v d.observed := rfl

theorem Dec.observed_observed (d : Dec) : d.observed.observed = d.observed := by
  simp only [Dec.observed, Channel.observed_observed]

/-- A decoded bit makes the same of what can be observed. -/
theorem channelBit_observed (i : Chan) (b : Bit) (d : Dec) :
    (channelBit i b d.observed).observed = (channelBit i b d).observed := by
  have hrun : (d.observed.ch i).run = (d.ch i).run := by simp
  have hwin : (d.observed.ch i).win = (d.ch i).win := by simp
  have hsync : (d.observed.ch i).sync = (d.ch i).sync := by simp
  rcases channelBit_cases i b d with ⟨h1, e⟩ | ⟨h1, h2, e⟩ | ⟨h1, h2, h3, e⟩ | ⟨h1, h2, h3, h4, e⟩ |
    ⟨h1, h2, h3, h4, e⟩ <;> rw [e]
  case inl =>
    rw [channelBit_illegalRun (by rw [hrun]; exact h1), Dec.observed_setCh, Dec.observed_observed, Dec.observed_setCh]
  case inr.inl =>
    rw [channelBit_match (by rw [hrun]; exact h1) (by rw [hwin]; exact h2)]
    simp only [Dec.observed_emitByte, Dec.observed_setCh, Dec.observed_observed, Dec.observed_ch, Channel.shifted_eq,
      Channel.observed_run, Channel.observed_win]
  case inr.inr.inl =>
    rw [channelBit_quiet (by rw [hrun]; exact h1) (by rw [hwin]; exact h2) (by rw [hsync, hrun]; exact h3),
      Dec.observed_setCh, Dec.observed_observed, Dec.observed_setCh, Dec.observed_ch, Channel.observed_shifted,
      Channel.observed_observed, Channel.observed_shifted]
  all_goals
    have hch : d.observed.ch i = d.ch i := by
      rw [Dec.observed_ch, Channel.observed_of_sync (Bool.and_eq_true_iff.mp h3).1]
  case inr.inr.inr.inl =>
    rw [← hch] at h1 h2 h3 h4
    rw [channelBit_append h1 h2 h3 h4, hch, Dec.observed_setCh, Dec.observed_observed, Dec.observed_setCh]
  case inr.inr.inr.inr =>
    rw [← hch] at h1 h2 h3 h4
    rw [channelBit_append_full h1 h2 h3 h4, hch, Dec.observed_emitByte, Dec.observed_setCh, Dec.observed_observed,
      Dec.observed_emitByte, Dec.observed_setCh]

theorem channelStep_observed (i : Chan) (c1 c2 : Chip) (d : Dec) :
    (channelStep i c1 c2 d.observed).observed = (channelStep i c1 c2 d).observed := by
  rcases symbol : symDecode c1 c2 with b | _
  · simp only [channelStep, symbol]
    exact channelBit_observed i b d
  · simp only [channelStep, symbol, raiseError_eq, Dec.observed_setCh, Dec.observed_observed]

theorem deliverChip_observed (c : Chip) (d : Dec) :
    (deliverChip c d.observed).observed = (deliverChip c d).observed := by
  have hwrite (d : Dec) (p : Option Chip) (j : Chan) :
      ({ d with prev := p, sel := j } : Dec).observed = { d.observed with prev := p, sel := j } := rfl
  have hprev : d.observed.prev = d.prev := rfl
  rcases h : d.prev with _ | p
  · rw [deliverChip_first c h, deliverChip_first c (hprev.trans h), hwrite, hwrite, Dec.observed_observed]
    rfl
  · rw [deliverChip_next c h, deliverChip_next c (hprev.trans h), hwrite, hwrite]
    exact congrArg (fun x : Dec => { x with prev := some c, sel := d.sel.other }) (channelStep_observed d.sel p c d)

theorem decEffect_observed (op : Instr) (d : Dec) :
    (decEffect op d.observed).observed = (decEffect op d).observed := by
  cases op with
  | decChip0 => exact deliverChip_observed false d
  | decChip1 => exact deliverChip_observed true d
  | decDelimBar | decDelimNl | decEnd => rfl
  | sym01 i => exact channelBit_observed i false d
  | sym10 i => exact channelBit_observed i true d
  | sym00 i => exact channelStep_observed i false false d
  | sym11 i => exact channelStep_observed i true true d
  | _ => exact d.observed_observed

/-- Decoder units that look alike look alike after any operations. -/
theorem foldl_decEffect_observed {α : Type} (op : α → Instr) (xs : List α) {d d' : Dec} (h : d.observed = d'.observed) :
    (xs.foldl (fun d x => decEffect (op x) d) d).observed = (xs.foldl (fun d x => decEffect (op x) d) d').observed := by
  induction xs generalizing d d' with
  | nil => exact h
  | cons x xs ih => exact ih (by rw [← decEffect_observed (op x) d, h, decEffect_observed (op x) d'])

/-- What a Searching channel has in `acc` and `cnt` cannot be observed. -/
theorem Dec.observed_setCh_searching {d : Dec} {i : Chan} (h : (d.ch i).sync = false) (acc : BitVec 8)
    (cnt : BitVec 3) :
    (d.setCh i { d.ch i with acc := acc, cnt := cnt }).observed = d.observed := by
  have hch : ({ d.ch i with acc := acc, cnt := cnt } : Channel).observed = (d.ch i).observed := by
    simp only [Channel.observed, h, Bool.false_eq_true, if_false]
  rw [Dec.observed_setCh, hch, ← Dec.observed_ch, Dec.setCh_ch_self]

/-! ### The two phases -/

/-- A frame's chips, with one extra chip before them or none. -/
def framed (extra : Option Chip) (bs : List Bit) : List Chip := extra.toList ++ manchester bs

/-- The channel of the true phase: that of the frame's first symbol, or the other one after an extra chip. -/
def truePhase : Option Chip → Chan
  | none => .b
  | some _ => .a

/-- From a frame start, the chips of bits give the tokens that the channel of the true phase alone gives, and the other
channel is Searching (R99). -/
theorem deliverChips_truePhase (extra : Option Chip) (bs : List Bit) {u : Dec} (h : u.FrameStart) :
    ((framed extra bs).foldl (fun d c => deliverChip c d) u).out =
      (bs.foldl (fun d b => channelBit (truePhase extra) b d) u).out ∧
    (((framed extra bs).foldl (fun d c => deliverChip c d) u).ch (truePhase extra).other).sync = false := by
  obtain ⟨hprev, hsel, ha, hb, -⟩ := h
  cases bs with
  | nil =>
    cases extra with
    | none => exact ⟨rfl, congrArg Channel.sync ha⟩
    | some x =>
      rw [show framed (some x) [] = [x] from rfl, List.foldl_cons, List.foldl_nil, deliverChip_first x hprev]
      exact ⟨rfl, congrArg Channel.sync hb⟩
  | cons b bs =>
    obtain ⟨y, hother, heq⟩ : ∃ y, ((framed extra (b :: bs)).foldl (fun d c => deliverChip c d) u).TracksPhase
        (truePhase extra) y ((b :: bs).foldl (fun d b => channelBit (truePhase extra) b d) u) := by
      cases extra with
      | none => exact (Dec.tracksPhase_start b hprev hsel ha).bits bs
      | some x => exact (Dec.tracksPhase_startExtra x b hprev hsel hb).bits bs
    exact ⟨(congrArg Dec.out heq).trans (Dec.out_setCh ..), hother.quiet.sync_eq⟩

/-- A run over a frame's chips from a frame start. -/
theorem run_framed (extra : Option Chip) (bs : List Bit) {s : State} (h : s.dec.FrameStart) :
    ∃ t, run ((framed extra bs).map decDigit) s = .next t ∧
      t.dec.out = (bs.foldl (fun d b => channelBit (truePhase extra) b d) s.dec).out ∧
      (t.dec.ch (truePhase extra).other).sync = false :=
  ⟨_, run_decDigits (framed extra bs) s, deliverChips_truePhase extra bs h⟩

/-- The unit with its channels exchanged. -/
def Dec.swap (d : Dec) : Dec := { d with chA := d.chB, chB := d.chA }

theorem Dec.swap_ch (d : Dec) (i : Chan) : d.swap.ch i = d.ch i.other := by cases i <;> rfl

theorem Dec.swap_setCh (d : Dec) (i : Chan) (c : Channel) : (d.setCh i c).swap = d.swap.setCh i.other c := by
  cases i <;> rfl

/-- The channels differ in nothing but their name: what a bit does in one, it does in the other with the two
exchanged. -/
theorem channelBit_swap (i : Chan) (b : Bit) (d : Dec) :
    channelBit i.other b d.swap = (channelBit i b d).swap := by
  have hch : d.swap.ch i.other = d.ch i := by rw [Dec.swap_ch, Chan.other_other]
  have hcases := channelBit_cases i b d
  rw [← hch] at hcases
  rcases hcases with ⟨h1, e⟩ | ⟨h1, h2, e⟩ | ⟨h1, h2, h3, e⟩ | ⟨h1, h2, h3, h4, e⟩ | ⟨h1, h2, h3, h4, e⟩ <;> rw [e]
  · rw [channelBit_illegalRun h1, Dec.swap_setCh]
  · rw [channelBit_match h1 h2]
    cases i <;> rfl
  · rw [channelBit_quiet h1 h2 h3, Dec.swap_setCh]
  · rw [channelBit_append h1 h2 h3 h4, Dec.swap_setCh]
  · rw [channelBit_append_full h1 h2 h3 h4]
    cases i <;> rfl

theorem foldl_channelBit_swap (i : Chan) (bs : List Bit) (d : Dec) :
    bs.foldl (fun d b => channelBit i.other b d) d.swap = (bs.foldl (fun d b => channelBit i b d) d).swap := by
  induction bs generalizing d with
  | nil => rfl
  | cons b bs ih => rw [List.foldl_cons, List.foldl_cons, channelBit_swap, ih]

/-- From a frame start, either channel alone gives the same tokens. -/
theorem foldl_channelBit_out_eq (bs : List Bit) {u : Dec} (h : u.FrameStart) :
    (bs.foldl (fun d b => channelBit .a b d) u).out = (bs.foldl (fun d b => channelBit .b b d) u).out := by
  obtain ⟨-, -, ha, hb, -⟩ := h
  have hswap : u.swap = u := by
    cases u
    cases ha.trans hb.symm
    rfl
  have hfold := foldl_channelBit_swap .b bs u
  rw [hswap] at hfold
  rw [show Chan.a = Chan.b.other from rfl, hfold]
  rfl

/-! ### The round trip -/

/-- The sync byte and the bytes after it, whole, and fewer than eight bits more, received from a frame start by one
channel: the bytes' tokens, the first with the separator of R104. -/
theorem receive_frame (p : StuffTrigger) (i : Chan) (bytes : List Byte) {tail : List Bit} (htail : tail.length < 8)
    {u : Dec} (h : u.FrameStart) :
    ((stuffedBits p (wireOrder [] ((0x7E :: bytes).flatMap byteText ++ tail)) 0 0).foldl
        (fun d b => channelBit i b d) u).out =
      u.out ++ ⟨0x7E, u.emittedAny⟩ :: bytes.map fun v => ⟨v, false⟩ := by
  have hsync : stuffedBits p (groupBits 8 0x7E) 0 0 = groupBits 8 0x7E := stuffedBits_first p _ 0 0 (by decide)
  have hones : wideOnes p (groupBits 8 0x7E) 0 0 = 0 := by cases p <;> rfl
  rw [wireOrder_bytes _ tail htail, List.flatMap_cons, List.append_assoc, stuffedBits_append, hsync, hones,
    List.foldl_append]
  obtain ⟨n, -, hreceived⟩ := (Dec.receiving_start i h).stream p (bytes.flatMap (groupBits 8) ++ tail.reverse)
    (Nat.zero_le 4) (k := 0 + (groupBits 8 0x7E).length) (by decide)
  rw [hreceived.out_eq, List.foldl_append, collect_bytes, collect_tail _ _ (by simpa using htail),
    List.append_assoc, List.singleton_append]

end Machine

open Machine

/-- Settles O25: noise words are noise operations, which do nothing in either unit. -/
theorem noiseWordsCanBeDropped : Obligations.NoiseWordsCanBeDropped := fun ws s =>
  ⟨run_dropNoise ws s (fun _ _ h => by rw [decode_dec_noiseWord h]; rfl)
      (fun _ _ h => by rw [decode_dec_noiseWord h]; rfl),
    run_dropNoise ws s (fun _ _ h => by rw [decode_enc_noiseWord h]; rfl)
      (fun _ _ h => by rw [decode_enc_noiseWord h]; rfl)⟩

/-- Settles O29: the two decoders look alike, and so do those that come from them; tokens can be observed. -/
theorem searchingAccumulatorIsUnobservable : Obligations.SearchingAccumulatorIsUnobservable := by
  intro ws i acc cnt s hsync
  have halike := foldl_decEffect_observed (fun w => decode (.dec w)) ws (Dec.observed_setCh_searching hsync acc cnt)
  refine ⟨_, _, run_port .dec ws s, run_port .dec ws _, ?_⟩
  exact (congrArg Dec.out halike).symm

/-- Settles O30: each phase's channel alone, by its own symbols. -/
theorem wrongPhaseChannelNeverLocks : Obligations.WrongPhaseChannelNeverLocks := by
  intro bs s hstart
  have phase (extra : Option Chip) : ∃ t u, run ((framed extra bs).map decDigit) s = .next t ∧
      run (bs.map (symOf (truePhase extra))) s = .next u ∧ t.dec.out = u.dec.out ∧
      (t.dec.ch (truePhase extra).other).sync = false := by
    obtain ⟨t, hrun, hout, hsync⟩ := run_framed extra bs hstart
    exact ⟨t, _, hrun, run_symOf (truePhase extra) bs s, hout, hsync⟩
  exact ⟨phase none, fun x => phase (some x)⟩

/-- Settles O31: in either phase the tokens are those of one channel alone, and the channels give the same. -/
theorem phaseIndependence : Obligations.PhaseIndependence := by
  intro bs x s hstart
  obtain ⟨t, hrun, hout, -⟩ := run_framed none bs hstart
  obtain ⟨u, hrun', hout', -⟩ := run_framed (some x) bs hstart
  exact ⟨t, u, hrun, hrun', hout.trans ((foldl_channelBit_out_eq bs hstart).symm.trans hout'.symm)⟩

/-- Settles O43: the encoder sends the stuffed bits of the text in wire order, and the channel of the true phase
receives them. -/
theorem roundTrip : Obligations.RoundTrip := by
  intro bytes tail ending extra s r htail henc hdec
  let text := (0x7E :: bytes).flatMap byteText ++ tail
  let bits := stuffedBits s.cfg.stuffTrigger (wireOrder [] text) 0 0
  obtain ⟨e, hencode, hregisters, -, -⟩ := encodedFrameIsTheReference text ending s henc
  obtain ⟨d, hdecode, hout, -⟩ := run_framed extra bits hdec
  refine ⟨e, manchester bits, d, hencode, ?_, hdecode, ?_⟩
  · rw [hregisters, wideChips_eq_manchester]
  · rw [hout, receive_frame s.cfg.stuffTrigger (truePhase extra) bytes htail hdec]

end Sys2Proof
end
